-- ==== Sys2Proof/Word.lean ====
section
/-! DEFINITION. The word types of the CHIP-8 core and the types built from them with no state:
bytes, words, the fields of an instruction, the framebuffer grid and the keypad snapshot
(spec/00_scope.md R5, R7, R8). -/

namespace Sys2Proof

/-- 8 bits: a memory byte, a general register, a timer, an immediate `nn` (R5). -/
abbrev Byte := BitVec 8

/-- 16 bits: the program counter, the index register, a stack entry, an instruction word (R5). -/
abbrev Word := BitVec 16

/-- A 4-bit register index `x` or `y`, a row count `n`, a key index (R7, R55). -/
abbrev Nibble := BitVec 4

/-- A 12-bit address immediate `nnn` (R7, R55). -/
abbrev Addr12 := BitVec 12

/-- The index of VF, the register that doubles as flag (R9, R16). -/
def vfIndex : Nibble := 0xF#4

/-- The 64 × 32 grid of the display, one Boolean a pixel, held row by row (R28; the order of storage
cannot be observed, 92_eei_decisions.md D19). -/
abbrev PixelGrid := Vector (Vector Bool 64) 32

/-- The keypad snapshot `K`: 16 independent Booleans, true meaning the key is down (R29). -/
abbrev Keypad := Vector Bool 16

/-- Zero extension of a byte to 16 bits (`zext_16`, R8). -/
def zextByte (b : Byte) : Word := b.setWidth 16

/-- Zero extension of a 12-bit address to 16 bits (`zext_16`, R8, R56). -/
def zextAddr (a : Addr12) : Word := a.setWidth 16

/-- The concatenation of a high and a low byte (`a ‖ b`, R8). -/
def joinBytes (hi lo : Byte) : Word := hi ++ lo

end Sys2Proof
end

