-- ==== Sys2Proof/Config.lean ====
section
/-! DEFINITION. What the implementation fixes (memory size, load address, stack depth) and the free
values of the spec: the host's inputs to a cycle and the choice of `KEY_SELECT`
(spec/00_scope.md R5, R6). -/

namespace Sys2Proof

/-- `MEM_SIZE`: addresses 0 to 4095 exist (R5, R36). -/
def Config.memSize : Nat := 4096

/-- `ROM_BASE`: where the ROM is loaded and where execution starts (R5, R48, R137). -/
def Config.romBase : Nat := 512

/-- `STACK_DEPTH`: the most entries the return-address stack holds (R5, R25). -/
def Config.stackDepth : Nat := 16

/-- What the host supplies between two cycles and for the coming cycle (R13, R131): how many timer
ticks fall before the cycle (R119), the keypad snapshot `K` of the cycle (R127), and the byte `r`
that a `Cxnn` of the cycle draws (R130). -/
structure HostInput where
  ticks : Nat
  keys : Keypad
  rand : Byte
  deriving DecidableEq, Repr, Inhabited

/-- FREE VALUE (log entries 1 and 2). The host's inputs that no state schedules, one for each number;
nothing constrains them, so a claim holds for every number of ticks, every snapshot and every
random byte (R119, R127, R130). -/
opaque Config.hostInput : Nat → HostInput

/-- FREE VALUE (log entry 6). The parameter `KEY_SELECT` of R6: which of the keys that are down
(as a position in the ascending list of them) `Fx0A` stores when several are. -/
opaque Config.keyChoice : Keypad → Nat

end Sys2Proof
end

