-- ==== Sys2Proof/Syntax.lean ====
section
/-! DEFINITION. The instructions, one constructor per row of spec/opcode_table.json, the fields of an
instruction word, and the names under which decoding rejects (spec/30_encoding.md R55 to R62). -/

namespace Sys2Proof

/-- One constructor per row of the opcode map (R59), in the map's order. Operands: `x`, `y` a register
index, `n` a row count, `nn` a byte, `nnn` a 12-bit address (R57). -/
inductive Instr where
  | cls                          -- 00E0
  | ret                          -- 00EE
  | jpNnn (nnn : Addr12)         -- 1nnn
  | callNnn (nnn : Addr12)       -- 2nnn
  | seVxNn (x : Nibble) (nn : Byte)    -- 3xnn
  | sneVxNn (x : Nibble) (nn : Byte)   -- 4xnn
  | seVxVy (x y : Nibble)        -- 5xy0
  | ldVxNn (x : Nibble) (nn : Byte)    -- 6xnn
  | addVxNn (x : Nibble) (nn : Byte)   -- 7xnn
  | ldVxVy (x y : Nibble)        -- 8xy0
  | orVxVy (x y : Nibble)        -- 8xy1
  | andVxVy (x y : Nibble)       -- 8xy2
  | xorVxVy (x y : Nibble)       -- 8xy3
  | addVxVy (x y : Nibble)       -- 8xy4
  | subVxVy (x y : Nibble)       -- 8xy5
  | shrVxVy (x y : Nibble)       -- 8xy6, y encoded but not read
  | subnVxVy (x y : Nibble)      -- 8xy7
  | shlVxVy (x y : Nibble)       -- 8xyE, y encoded but not read
  | sneVxVy (x y : Nibble)       -- 9xy0
  | ldINnn (nnn : Addr12)        -- Annn
  | jpV0Nnn (nnn : Addr12)       -- Bnnn
  | rndVxNn (x : Nibble) (nn : Byte)   -- Cxnn
  | drwVxVyN (x y n : Nibble)    -- Dxyn
  | skpVx (x : Nibble)           -- Ex9E
  | sknpVx (x : Nibble)          -- ExA1
  | ldVxDt (x : Nibble)          -- Fx07
  | ldVxK (x : Nibble)           -- Fx0A
  | ldDtVx (x : Nibble)          -- Fx15
  | ldStVx (x : Nibble)          -- Fx18
  | addIVx (x : Nibble)          -- Fx1E
  | ldFVx (x : Nibble)           -- Fx29
  | ldBVx (x : Nibble)           -- Fx33
  | ldMemVx (x : Nibble)         -- Fx55
  | ldVxMem (x : Nibble)         -- Fx65
  deriving DecidableEq, Repr

/-- The fields of an instruction word; every field is extracted from every word (R55). -/
structure Fields where
  op : Nibble
  x : Nibble
  y : Nibble
  n : Nibble
  nn : Byte
  nnn : Addr12
  deriving DecidableEq, Repr

/-- A row of the opcode map of R59: a word `w` selects the row when `w & mask = pattern`. The mnemonic
is a label only (R66), spelled as spec/opcode_table.json spells it. -/
structure OpcodeRow where
  mnemonic : String
  pattern : Word
  mask : Word
  deriving DecidableEq, Repr

/-- The six parts of the unrecognized space (the table of R61). -/
inductive UnrecognizedSpace where
  | class0   -- class 0x0 other than 00E0 and 00EE
  | class5   -- 5xyN, N not 0
  | class8   -- 8xyN, N one of 8, 9, A, B, C, D, F
  | class9   -- 9xyN, N not 0
  | classE   -- ExNN, NN neither 9E nor A1
  | classF   -- FxNN, NN none of the nine of R61
  deriving DecidableEq, Repr

/-- Why bytes or a word decode to no instruction. -/
inductive DecodeReject where
  /-- Fewer than the two bytes of an instruction (R65). -/
  | tooShort
  /-- A word that selects no row (R61). -/
  | unrecognized (space : UnrecognizedSpace)
  deriving DecidableEq, Repr

/-- The mnemonic of an instruction's row, as spec/opcode_table.json spells it (R59, R66). -/
def Instr.mnemonic : Instr → String
  | .cls => "CLS"
  | .ret => "RET"
  | .jpNnn _ => "JP_nnn"
  | .callNnn _ => "CALL_nnn"
  | .seVxNn _ _ => "SE_Vx__nn"
  | .sneVxNn _ _ => "SNE_Vx__nn"
  | .seVxVy _ _ => "SE_Vx__Vy"
  | .ldVxNn _ _ => "LD_Vx__nn"
  | .addVxNn _ _ => "ADD_Vx__nn"
  | .ldVxVy _ _ => "LD_Vx__Vy"
  | .orVxVy _ _ => "OR_Vx__Vy"
  | .andVxVy _ _ => "AND_Vx__Vy"
  | .xorVxVy _ _ => "XOR_Vx__Vy"
  | .addVxVy _ _ => "ADD_Vx__Vy"
  | .subVxVy _ _ => "SUB_Vx__Vy"
  | .shrVxVy _ _ => "SHR_Vx____Vy"
  | .subnVxVy _ _ => "SUBN_Vx__Vy"
  | .shlVxVy _ _ => "SHL_Vx____Vy"
  | .sneVxVy _ _ => "SNE_Vx__Vy"
  | .ldINnn _ => "LD_I__nnn"
  | .jpV0Nnn _ => "JP_V0__nnn"
  | .rndVxNn _ _ => "RND_Vx__nn"
  | .drwVxVyN _ _ _ => "DRW_Vx__Vy__n"
  | .skpVx _ => "SKP_Vx"
  | .sknpVx _ => "SKNP_Vx"
  | .ldVxDt _ => "LD_Vx__DT"
  | .ldVxK _ => "LD_Vx__K"
  | .ldDtVx _ => "LD_DT__Vx"
  | .ldStVx _ => "LD_ST__Vx"
  | .addIVx _ => "ADD_I__Vx"
  | .ldFVx _ => "LD_F__Vx"
  | .ldBVx _ => "LD_B__Vx"
  | .ldMemVx _ => "LD__I___Vx"
  | .ldVxMem _ => "LD_Vx___I"

end Sys2Proof
end

