-- ==== Sys2Proof/WellFormed.lean ====
section
/-! DEFINITION. The checks on data the machine is given: a row of the opcode map, the fields of a word,
and a ROM. EVERY term of `Instr` is well-formed: its operands have the exact widths of the fields
they come from (spec/30_encoding.md R55, R56), so there is no check on an instruction that could
fail, and a statement 'for every well-formed instruction' is one for every instruction. -/

namespace Sys2Proof

/-- A row fixes the primary opcode, and its pattern sets no bit outside its mask (R58, R59). -/
def OpcodeRow.wellFormed (r : OpcodeRow) : Bool :=
  r.mask &&& 0xF000#16 == 0xF000#16 && r.pattern &&& r.mask == r.pattern

/-- The fields of one word overlap: `nn` is `y` and `n` side by side, and `nnn` is `x` and `nn` side
by side (the bit ranges of R55). -/
def Fields.wellFormed (f : Fields) : Bool :=
  f.nn == f.y ++ f.n && f.nnn == f.x ++ f.nn

/-- The loader's check: a ROM fits between address 512 and the top of memory (R48). -/
def romFits (rom : List Byte) : Bool :=
  rom.length + Config.romBase ≤ Config.memSize

end Sys2Proof
end

