-- ==== Sys2Proof/Decode.lean ====
section
/-! DEFINITION. Decoding, total on any bytes and rejecting by name, then the encoder, then the opcode
map as the spec prints it (spec/30_encoding.md R55 to R62; spec/40_cycle.md R70). -/

namespace Sys2Proof

/-- The fields of a word, each a fixed bit range (R55). -/
def fieldsOf (w : Word) : Fields where
  op := w.extractLsb' 12 4
  x := w.extractLsb' 8 4
  y := w.extractLsb' 4 4
  n := w.extractLsb' 0 4
  nn := w.extractLsb' 0 8
  nnn := w.extractLsb' 0 12

/-- Class 0x0, selected by the whole word, that is by `nnn` beside `op = 0` (R58). -/
def decodeClass0 (f : Fields) : Except DecodeReject Instr :=
  match f.nnn with
  | 0x0E0#12 => .ok .cls
  | 0x0EE#12 => .ok .ret
  | _ => .error (.unrecognized .class0)

/-- Class 0x5, which requires a low nibble of 0 (R62). -/
def decodeClass5 (f : Fields) : Except DecodeReject Instr :=
  match f.n with
  | 0x0#4 => .ok (.seVxVy f.x f.y)
  | _ => .error (.unrecognized .class5)

/-- Class 0x8, selected by the low nibble (R58). -/
def decodeClass8 (f : Fields) : Except DecodeReject Instr :=
  match f.n with
  | 0x0#4 => .ok (.ldVxVy f.x f.y)
  | 0x1#4 => .ok (.orVxVy f.x f.y)
  | 0x2#4 => .ok (.andVxVy f.x f.y)
  | 0x3#4 => .ok (.xorVxVy f.x f.y)
  | 0x4#4 => .ok (.addVxVy f.x f.y)
  | 0x5#4 => .ok (.subVxVy f.x f.y)
  | 0x6#4 => .ok (.shrVxVy f.x f.y)
  | 0x7#4 => .ok (.subnVxVy f.x f.y)
  | 0xE#4 => .ok (.shlVxVy f.x f.y)
  | _ => .error (.unrecognized .class8)

/-- Class 0x9, which requires a low nibble of 0 (R62). -/
def decodeClass9 (f : Fields) : Except DecodeReject Instr :=
  match f.n with
  | 0x0#4 => .ok (.sneVxVy f.x f.y)
  | _ => .error (.unrecognized .class9)

/-- Class 0xE, selected by the low byte (R58). -/
def decodeClassE (f : Fields) : Except DecodeReject Instr :=
  match f.nn with
  | 0x9E#8 => .ok (.skpVx f.x)
  | 0xA1#8 => .ok (.sknpVx f.x)
  | _ => .error (.unrecognized .classE)

/-- Class 0xF, selected by the low byte (R58). -/
def decodeClassF (f : Fields) : Except DecodeReject Instr :=
  match f.nn with
  | 0x07#8 => .ok (.ldVxDt f.x)
  | 0x0A#8 => .ok (.ldVxK f.x)
  | 0x15#8 => .ok (.ldDtVx f.x)
  | 0x18#8 => .ok (.ldStVx f.x)
  | 0x1E#8 => .ok (.addIVx f.x)
  | 0x29#8 => .ok (.ldFVx f.x)
  | 0x33#8 => .ok (.ldBVx f.x)
  | 0x55#8 => .ok (.ldMemVx f.x)
  | 0x65#8 => .ok (.ldVxMem f.x)
  | _ => .error (.unrecognized .classF)

/-- Dispatch on the high nibble (R58). -/
def decodeFields (f : Fields) : Except DecodeReject Instr :=
  match f.op with
  | 0x0#4 => decodeClass0 f
  | 0x1#4 => .ok (.jpNnn f.nnn)
  | 0x2#4 => .ok (.callNnn f.nnn)
  | 0x3#4 => .ok (.seVxNn f.x f.nn)
  | 0x4#4 => .ok (.sneVxNn f.x f.nn)
  | 0x5#4 => decodeClass5 f
  | 0x6#4 => .ok (.ldVxNn f.x f.nn)
  | 0x7#4 => .ok (.addVxNn f.x f.nn)
  | 0x8#4 => decodeClass8 f
  | 0x9#4 => decodeClass9 f
  | 0xA#4 => .ok (.ldINnn f.nnn)
  | 0xB#4 => .ok (.jpV0Nnn f.nnn)
  | 0xC#4 => .ok (.rndVxNn f.x f.nn)
  | 0xD#4 => .ok (.drwVxVyN f.x f.y f.n)
  | 0xE#4 => decodeClassE f
  | _ => decodeClassF f

/-- The instruction a word stands for, or the part of the unrecognized space it lies in (R70). -/
def decodeWord (w : Word) : Except DecodeReject Instr :=
  decodeFields (fieldsOf w)

/-- The instruction at the front of a list of bytes, big-endian, with the bytes after it (R55, R65). -/
def decode : List Byte → Except DecodeReject (Instr × List Byte)
  | hi :: lo :: rest => (decodeWord (joinBytes hi lo)).map fun i => (i, rest)
  | _ => .error .tooShort

/-- The word of an instruction, field beside field as the map of R59 prints its pattern. -/
def encode : Instr → Word
  | .cls => 0x00E0#16
  | .ret => 0x00EE#16
  | .jpNnn nnn => 0x1#4 ++ nnn
  | .callNnn nnn => 0x2#4 ++ nnn
  | .seVxNn x nn => 0x3#4 ++ x ++ nn
  | .sneVxNn x nn => 0x4#4 ++ x ++ nn
  | .seVxVy x y => 0x5#4 ++ x ++ y ++ 0x0#4
  | .ldVxNn x nn => 0x6#4 ++ x ++ nn
  | .addVxNn x nn => 0x7#4 ++ x ++ nn
  | .ldVxVy x y => 0x8#4 ++ x ++ y ++ 0x0#4
  | .orVxVy x y => 0x8#4 ++ x ++ y ++ 0x1#4
  | .andVxVy x y => 0x8#4 ++ x ++ y ++ 0x2#4
  | .xorVxVy x y => 0x8#4 ++ x ++ y ++ 0x3#4
  | .addVxVy x y => 0x8#4 ++ x ++ y ++ 0x4#4
  | .subVxVy x y => 0x8#4 ++ x ++ y ++ 0x5#4
  | .shrVxVy x y => 0x8#4 ++ x ++ y ++ 0x6#4
  | .subnVxVy x y => 0x8#4 ++ x ++ y ++ 0x7#4
  | .shlVxVy x y => 0x8#4 ++ x ++ y ++ 0xE#4
  | .sneVxVy x y => 0x9#4 ++ x ++ y ++ 0x0#4
  | .ldINnn nnn => 0xA#4 ++ nnn
  | .jpV0Nnn nnn => 0xB#4 ++ nnn
  | .rndVxNn x nn => 0xC#4 ++ x ++ nn
  | .drwVxVyN x y n => 0xD#4 ++ x ++ y ++ n
  | .skpVx x => 0xE#4 ++ x ++ 0x9E#8
  | .sknpVx x => 0xE#4 ++ x ++ 0xA1#8
  | .ldVxDt x => 0xF#4 ++ x ++ 0x07#8
  | .ldVxK x => 0xF#4 ++ x ++ 0x0A#8
  | .ldDtVx x => 0xF#4 ++ x ++ 0x15#8
  | .ldStVx x => 0xF#4 ++ x ++ 0x18#8
  | .addIVx x => 0xF#4 ++ x ++ 0x1E#8
  | .ldFVx x => 0xF#4 ++ x ++ 0x29#8
  | .ldBVx x => 0xF#4 ++ x ++ 0x33#8
  | .ldMemVx x => 0xF#4 ++ x ++ 0x55#8
  | .ldVxMem x => 0xF#4 ++ x ++ 0x65#8

/-- The two bytes of a word in the order the hardware stores them: bits 15:8 first (R43). -/
def wordBytes (w : Word) : List Byte := [w.extractLsb' 8 8, w.extractLsb' 0 8]

/-- The bytes of an instruction in memory order (R43, R55). -/
def encodeBytes (i : Instr) : List Byte := wordBytes (encode i)

/-- The instruction the decoder reads from the `nbits` low bits `w` of a first word, the bits above
them zero (the host's numbering: bit 0 is bit 0 of the 16-bit word). -/
def decodeTableWord (nbits w : Nat) : Option Instr :=
  match decode (wordBytes (BitVec.ofNat 16 (w % 2 ^ nbits))) with
  | .ok (i, _) => some i
  | .error _ => none

/-- The rows of classes 0x0 to 0x7 of the opcode map (R59). -/
def opcodeRowsLow : List OpcodeRow := [
  ⟨"CLS", 0x00E0#16, 0xFFFF#16⟩,
  ⟨"RET", 0x00EE#16, 0xFFFF#16⟩,
  ⟨"JP_nnn", 0x1000#16, 0xF000#16⟩,
  ⟨"CALL_nnn", 0x2000#16, 0xF000#16⟩,
  ⟨"SE_Vx__nn", 0x3000#16, 0xF000#16⟩,
  ⟨"SNE_Vx__nn", 0x4000#16, 0xF000#16⟩,
  ⟨"SE_Vx__Vy", 0x5000#16, 0xF00F#16⟩,
  ⟨"LD_Vx__nn", 0x6000#16, 0xF000#16⟩,
  ⟨"ADD_Vx__nn", 0x7000#16, 0xF000#16⟩]

/-- The rows of classes 0x8 to 0xD of the opcode map (R59). -/
def opcodeRowsMiddle : List OpcodeRow := [
  ⟨"LD_Vx__Vy", 0x8000#16, 0xF00F#16⟩,
  ⟨"OR_Vx__Vy", 0x8001#16, 0xF00F#16⟩,
  ⟨"AND_Vx__Vy", 0x8002#16, 0xF00F#16⟩,
  ⟨"XOR_Vx__Vy", 0x8003#16, 0xF00F#16⟩,
  ⟨"ADD_Vx__Vy", 0x8004#16, 0xF00F#16⟩,
  ⟨"SUB_Vx__Vy", 0x8005#16, 0xF00F#16⟩,
  ⟨"SHR_Vx____Vy", 0x8006#16, 0xF00F#16⟩,
  ⟨"SUBN_Vx__Vy", 0x8007#16, 0xF00F#16⟩,
  ⟨"SHL_Vx____Vy", 0x800E#16, 0xF00F#16⟩,
  ⟨"SNE_Vx__Vy", 0x9000#16, 0xF00F#16⟩,
  ⟨"LD_I__nnn", 0xA000#16, 0xF000#16⟩,
  ⟨"JP_V0__nnn", 0xB000#16, 0xF000#16⟩,
  ⟨"RND_Vx__nn", 0xC000#16, 0xF000#16⟩,
  ⟨"DRW_Vx__Vy__n", 0xD000#16, 0xF000#16⟩]

/-- The rows of classes 0xE and 0xF of the opcode map (R59). -/
def opcodeRowsHigh : List OpcodeRow := [
  ⟨"SKP_Vx", 0xE09E#16, 0xF0FF#16⟩,
  ⟨"SKNP_Vx", 0xE0A1#16, 0xF0FF#16⟩,
  ⟨"LD_Vx__DT", 0xF007#16, 0xF0FF#16⟩,
  ⟨"LD_Vx__K", 0xF00A#16, 0xF0FF#16⟩,
  ⟨"LD_DT__Vx", 0xF015#16, 0xF0FF#16⟩,
  ⟨"LD_ST__Vx", 0xF018#16, 0xF0FF#16⟩,
  ⟨"ADD_I__Vx", 0xF01E#16, 0xF0FF#16⟩,
  ⟨"LD_F__Vx", 0xF029#16, 0xF0FF#16⟩,
  ⟨"LD_B__Vx", 0xF033#16, 0xF0FF#16⟩,
  ⟨"LD__I___Vx", 0xF055#16, 0xF0FF#16⟩,
  ⟨"LD_Vx___I", 0xF065#16, 0xF0FF#16⟩]

/-- The complete opcode map (R59). The decoder does not read it; statements compare the two. -/
def opcodeMap : List OpcodeRow := opcodeRowsLow ++ opcodeRowsMiddle ++ opcodeRowsHigh

/-- A word selects a row when `w & mask = pattern` (R59). -/
def OpcodeRow.selects (r : OpcodeRow) (w : Word) : Bool := w &&& r.mask == r.pattern

end Sys2Proof
end

