-- ==== Sys2Proof/Machine/State.lean ====
section
/-! DEFINITION. The state of the machine as plain data, every piece the spec gives it, the reasons a
step can stop, and the state after reset (spec/10_state.md R14, R31, R35; INVENTORY.md '## State'). -/

namespace Sys2Proof.Machine

/-- Whether the core can take another cycle (`status.state`, R31). -/
inductive RunState where
  | running
  | faulted
  deriving DecidableEq, Repr

/-- Which fault ended the run (`status.cause`, R31); the codes are those of R122. -/
inductive FaultCause where
  /-- Code 0: the core is running. -/
  | noFault
  /-- Code 1: a memory access outside 0 to 4095. -/
  | outOfBounds
  /-- Code 2: `00EE` on an empty stack. -/
  | stackUnderflow
  /-- Code 3: `2nnn` on a full stack. -/
  | stackOverflow
  /-- Code 4: `Ex9E` or `ExA1` with Vx above 15. -/
  | keyOutOfRange
  /-- Code 5: an unrecognized word or `Fx29` in strict mode. -/
  | unknownOpcode
  deriving DecidableEq, Repr

/-- The run-status record (R31). -/
structure RunStatus where
  state : RunState
  cause : FaultCause
  faultPc : Word
  info : Word
  deriving DecidableEq, Repr

/-- One event of the diagnostic stream: `Diagnostic(A, w)` (R72, R132). -/
structure Diagnostic where
  addr : Word
  word : Word
  deriving DecidableEq, Repr

/-- A fault that is raised, before its entry: its cause and its `info` (R11, R122). -/
structure FaultRaise where
  cause : FaultCause
  info : Word
  deriving DecidableEq, Repr

/-- Why the loader makes no core (`LoadError`, R48, R138). -/
inductive LoadError where
  /-- The ROM reaches past address 4095. -/
  | tooLarge
  deriving DecidableEq, Repr

/-- The state of the core (R14), the snapshot and configuration it runs under (R29, R32), its output
stream (R34), and the host's inputs it has not used yet (log entry 1). -/
structure State where
  /-- `mem` (R36): (address, byte) pairs, addresses strictly rising, no zero byte listed; an address
  that is not listed reads as 0 (R35). -/
  mem : List Host.Cell
  /-- V0 to VF (R15). -/
  v : Vector Byte 16
  /-- The index register `I` (R24). -/
  index : Word
  /-- The program counter (R19): the next instruction to fetch; during execution, A + 2. -/
  pc : Word
  /-- The return-address stack, top at the end (R9, R25). -/
  stack : List Word
  /-- The delay timer `DT` (R27). -/
  dt : Byte
  /-- The sound timer `ST` (R27). -/
  st : Byte
  /-- The framebuffer (R28). -/
  fb : PixelGrid
  /-- The keypad snapshot `K` of the cycle (R29). -/
  keys : Keypad
  /-- The `RAND` byte `r` of the cycle (R75, R130); the model's own field (log entry 2). -/
  rand : Byte
  /-- The run-status record (R31). -/
  status : RunStatus
  /-- The diagnostic stream `diag`, oldest event first (R34). -/
  diag : List Diagnostic
  /-- `STRICT_DECODE`, configuration that no step changes (R6, R32; log entry 4). -/
  strictDecode : Bool
  /-- Host inputs already scheduled, the next cycle's first; the model's own field (log entry 1). -/
  inputs : List HostInput
  /-- How many free host inputs were taken; the model's own field (log entry 1). -/
  inputsTaken : Nat
  deriving DecidableEq, Repr

/-- Why a step stops for good. -/
inductive Fault where
  /-- Raised by `step`, never by an instruction: the core is Faulted, and a faulted core has no step
  (R67, R126). Carries the status record the host reads. SAFE: nothing happens after it. -/
  | coreFaulted (status : RunStatus)
  deriving DecidableEq, Repr

/-- Why an instruction would be refused. -/
inductive Refusal where
  /-- Raised by an arm of `exec` whose instruction has no meaning yet; no arm is left that does.
  SAFE: the model stops where the core goes on. -/
  | notModelled (mnemonic : String)
  deriving DecidableEq, Repr

/-- The status of a running core, which is also the status at reset (R31, R35). -/
def RunStatus.initial : RunStatus := ⟨.running, .noFault, 0#16, 0#16⟩

/-- A framebuffer with every pixel off (R35, R76). -/
def blankGrid : PixelGrid := Vector.replicate 32 (Vector.replicate 64 false)

/-- The machine right after reset (R35, R136), with no ROM byte loaded (log entry 3). -/
def State.reset : State where
  mem := []
  v := Vector.replicate 16 0#8
  index := 0#16
  pc := 0x200#16
  stack := []
  dt := 0#8
  st := 0#8
  fb := blankGrid
  keys := Vector.replicate 16 false
  rand := 0#8
  status := RunStatus.initial
  diag := []
  strictDecode := false
  inputs := []
  inputsTaken := 0

end Sys2Proof.Machine
end

