-- ==== Sys2Proof/Machine/Ops.lean ====
section
/-! DEFINITION. The named operations every meaning is written over: memory and its bounds checks,
registers, the return-address stack, the framebuffer, entering a fault, and the action of an
unrecognized word (spec/20_memory.md R36 to R48; spec/60_exceptions.md R122 to R126). -/

namespace Sys2Proof.Machine

/-! ### Memory as a canonical list -/

/-- The byte at an address: what the list holds, else 0 (R35, R46). -/
def memGet : List Host.Cell → Nat → Byte
  | [], _ => 0#8
  | (k, b) :: rest, a => if k = a then b else memGet rest a

/-- Writes one byte, keeping the canonical form: addresses rising, no zero byte listed. -/
def memSet : List Host.Cell → Nat → Byte → List Host.Cell
  | [], a, b => if b = 0#8 then [] else [(a, b)]
  | (k, c) :: rest, a, b =>
    if a < k then (if b = 0#8 then (k, c) :: rest else (a, b) :: (k, c) :: rest)
    else if a = k then (if b = 0#8 then rest else (a, b) :: rest)
    else (k, c) :: memSet rest a b

/-- The canonical form above a bound: addresses from `lo` up, strictly rising, all below 4096, and no
zero byte listed. -/
def memWfFrom : Nat → List Host.Cell → Bool
  | _, [] => true
  | lo, (k, b) :: rest => decide (lo ≤ k) && decide (k < Config.memSize) && b != 0#8 && memWfFrom (k + 1) rest

/-- The canonical form of memory. -/
def Memory.wf (m : List Host.Cell) : Bool := memWfFrom 0 m

/-- Raises `OutOfBounds(addr)` (R38, R122). -/
def outOfBoundsAt (addr : Nat) : FaultRaise := ⟨.outOfBounds, BitVec.ofNat 16 addr⟩

/-- Checks one address against the address space (R38). -/
def checkAddr (addr : Nat) : Except FaultRaise Unit :=
  if addr > 4095 then .error (outOfBoundsAt addr) else .ok ()

/-- Checks `count` addresses upward from `base`, raising for the first one out of range (R42). The
addresses are unbounded naturals (R41). -/
def checkSpan (base : Nat) : Nat → Except FaultRaise Unit
  | 0 => .ok ()
  | count + 1 =>
    match checkAddr base with
    | .error f => .error f
    | .ok _ => checkSpan (base + 1) count

/-- `MemRead(addr, 1)` (R38). -/
def memRead (m : List Host.Cell) (addr : Nat) : Except FaultRaise Byte :=
  match checkAddr addr with
  | .error f => .error f
  | .ok _ => .ok (memGet m addr)

/-- `MemWrite(addr, 1, v)` (R39). -/
def memWrite (m : List Host.Cell) (addr : Nat) (b : Byte) : Except FaultRaise (List Host.Cell) :=
  match checkAddr addr with
  | .error f => .error f
  | .ok _ => .ok (memSet m addr b)

/-- Reads `count` bytes at ascending addresses, every address checked before the first read (R42). -/
def memReadBytes (m : List Host.Cell) (base count : Nat) : Except FaultRaise (List Byte) :=
  match checkSpan base count with
  | .error f => .error f
  | .ok _ => .ok ((List.range count).map fun k => memGet m (base + k))

/-- Stores bytes at ascending addresses, unchecked. -/
def memSetBytes (m : List Host.Cell) (base : Nat) : List Byte → List Host.Cell
  | [] => m
  | b :: rest => memSetBytes (memSet m base b) (base + 1) rest

/-- Stores bytes at ascending addresses, every address checked before the first write (R42). -/
def memWriteBytes (m : List Host.Cell) (base : Nat) (bytes : List Byte) :
    Except FaultRaise (List Host.Cell) :=
  match checkSpan base bytes.length with
  | .error f => .error f
  | .ok _ => .ok (memSetBytes m base bytes)

/-- `Fetch16(addr)`: two bytes, big-endian, the first address checked first (R40). -/
def fetch16 (m : List Host.Cell) (addr : Nat) : Except FaultRaise Word :=
  match memRead m addr with
  | .error f => .error f
  | .ok hi =>
    match memRead m (addr + 1) with
    | .error f => .error f
    | .ok lo => .ok (joinBytes hi lo)

/-- The listed cells of a ROM laid from an address up; its zero bytes are not listed (R48). -/
def romCells (base : Nat) : List Byte → List Host.Cell
  | [] => []
  | b :: rest => if b = 0#8 then romCells (base + 1) rest else (base, b) :: romCells (base + 1) rest

/-! ### Registers -/

/-- `V[r]` (R9, R15). -/
def readV (s : State) (r : Nibble) : Byte := s.v[r.toNat]'r.isLt

/-- `V[r] <- b` (R9, R15). -/
def writeV (s : State) (r : Nibble) (b : Byte) : State :=
  { s with v := s.v.set r.toNat b r.isLt }

/-- `pc <- target` (R9). -/
def setPc (s : State) (target : Word) : State := { s with pc := target }

/-- `I <- v` (R9). -/
def setIndex (s : State) (w : Word) : State := { s with index := w }

/-- Writes registers upward from index `r`, one byte each. -/
def writeVFrom (s : State) (r : Nat) : List Byte → State
  | [] => s
  | b :: rest => writeVFrom (writeV s (BitVec.ofNat 4 r) b) (r + 1) rest

/-! ### The program counter -/

/-- The advance `pc <- (pc + 2) mod 65536` of every cycle (R69), and of a taken skip (R82). -/
def advancePc (s : State) : State := setPc s (s.pc + 2#16)

/-- A skip instruction: moves past the next word if its condition holds (R20, R82). -/
def skipIf (c : Bool) (s : State) : State := if c then advancePc s else s

/-- The rewind `pc <- (pc - 2) mod 65536` of the key wait (R111). -/
def rewindPc (s : State) : State := setPc s (s.pc - 2#16)

/-- The address `A` of the executing instruction: during execution `pc = A + 2` (R19; log entry 7). -/
def instrAddr (s : State) : Word := s.pc - 2#16

/-! ### Return-address stack -/

/-- Pushes `pc`, or raises `StackOverflow` on a full stack (R81). -/
def pushPc (s : State) : Except FaultRaise State :=
  if s.stack.length ≥ Config.stackDepth then .error ⟨.stackOverflow, 0#16⟩
  else .ok { s with stack := s.stack ++ [s.pc] }

/-- Pops the top entry into `pc`, or raises `StackUnderflow` on an empty stack (R79). -/
def popPc (s : State) : Except FaultRaise State :=
  match s.stack.getLast? with
  | none => .error ⟨.stackUnderflow, 0#16⟩
  | some top => .ok { s with pc := top, stack := s.stack.dropLast }

/-! ### Framebuffer -/

/-- `fb(px, py)`, the coordinates reduced to the grid (R9, R77). -/
def pixelAt (g : PixelGrid) (px py : Nat) : Bool :=
  (g[py % 32]'(Nat.mod_lt _ (by decide)))[px % 64]'(Nat.mod_lt _ (by decide))

/-- `fb(px, py) <- b`, the coordinates reduced to the grid (R9, R77). -/
def setPixel (g : PixelGrid) (px py : Nat) (b : Bool) : PixelGrid :=
  g.set (py % 32)
    ((g[py % 32]'(Nat.mod_lt _ (by decide))).set (px % 64) b (Nat.mod_lt _ (by decide)))
    (Nat.mod_lt _ (by decide))

/-! ### Taking a fault (there is no return from one, R126) -/

/-- Fault entry: `status` records the fault and nothing else changes (R123). `a` is the address of the
faulting instruction. -/
def enterFault (a : Word) (f : FaultRaise) (s : State) : State :=
  { s with status := ⟨.faulted, f.cause, a, f.info⟩ }

/-- The state an execution leaves: its result, or the entry of the fault it raised, which finds the
state as the advance left it (R11, R74, R123). -/
def settle (s : State) : Except FaultRaise State → State
  | .ok t => t
  | .error f => enterFault (instrAddr s) f s

/-- The numeric fault codes (R122). -/
def faultCode : FaultCause → BitVec 4
  | .noFault => 0#4
  | .outOfBounds => 1#4
  | .stackUnderflow => 2#4
  | .stackOverflow => 3#4
  | .keyOutOfRange => 4#4
  | .unknownOpcode => 5#4

/-! ### Unrecognized words -/

/-- The action of an unrecognized word `w`, and of `Fx29`: the fault `UnknownOpcode(w)` in strict mode,
else one diagnostic event (R72, R103). -/
def unrecognizedAction (w : Word) (s : State) : Except FaultRaise State :=
  if s.strictDecode then .error ⟨.unknownOpcode, w⟩
  else .ok { s with diag := s.diag ++ [⟨instrAddr s, w⟩] }

end Sys2Proof.Machine
end

