-- ==== Sys2Proof/Machine/Flags.lean ====
section
/-! DEFINITION. Every flag computation of the spec, and the write of a result and its flag, flag last
(spec/10_state.md R16, R17; spec/43_alu.md R94 to R98; spec/44_index_memory.md R102). Results are
computed on integers and narrowed at the end (R8). -/

namespace Sys2Proof.Machine

/-- `(c ? 1 : 0)` as a register value (R8). -/
def flagByte (c : Bool) : Byte := if c then 1#8 else 0#8

/-- The unbounded sum reduced modulo 256 (R89, R94). -/
def sumByte (a b : Byte) : Byte := BitVec.ofNat 8 (a.toNat + b.toNat)

/-- Carry: the unbounded sum exceeds 255 (R94). -/
def carryOut (a b : Byte) : Bool := decide (a.toNat + b.toNat > 255)

/-- The difference `a - b` reduced to 0..255 (R95, R97). -/
def differenceByte (a b : Byte) : Byte := BitVec.ofInt 8 ((a.toNat : Int) - (b.toNat : Int))

/-- Not-borrow of `a - b`: the minuend is at least the subtrahend (R95, R97). -/
def notBorrow (a b : Byte) : Bool := decide (a.toNat ≥ b.toNat)

/-- Shift right by one (R96). -/
def shiftRightByte (a : Byte) : Byte := BitVec.ofNat 8 (a.toNat / 2)

/-- The bit a right shift by one moves out: bit 0 (R96). -/
def lowBit (a : Byte) : Bool := a.getLsbD 0

/-- Shift left by one, reduced modulo 256 (R98). -/
def shiftLeftByte (a : Byte) : Byte := BitVec.ofNat 8 (a.toNat * 2)

/-- The bit a left shift by one moves out: bit 7 (R98). -/
def highBit (a : Byte) : Bool := a.getLsbD 7

/-- `I + Vx` reduced modulo 65536 (R102). -/
def indexSum (i : Word) (b : Byte) : Word := BitVec.ofNat 16 (i.toNat + b.toNat)

/-- The flag of `Fx1E`: the unbounded sum exceeds 0xFFF (R102). -/
def indexPast (i : Word) (b : Byte) : Bool := decide (i.toNat + b.toNat > 0xFFF)

/-- Writes VF as flag (R16). -/
def writeFlag (s : State) (c : Bool) : State := writeV s vfIndex (flagByte c)

/-- Writes the result, then the flag, so that VF ends holding the flag (R17). -/
def writeWithFlag (s : State) (x : Nibble) (result : Byte) (c : Bool) : State :=
  writeFlag (writeV s x result) c

end Sys2Proof.Machine
end

