-- ==== Sys2Proof/Machine/Alu.lean ====
section
/-! DEFINITION. The register and arithmetic instructions (spec/43_alu.md R88 to R99). None reaches
memory or raises a fault; operands are read before any write and the flag is written last (R17). -/

namespace Sys2Proof.Machine

/-- `6xnn` LD Vx, nn (R88). -/
def execLdVxNn (x : Nibble) (nn : Byte) (s : State) : Host.Outcome State Fault Refusal :=
  .next (writeV s x nn)

/-- `7xnn` ADD Vx, nn (R89): no flag. -/
def execAddVxNn (x : Nibble) (nn : Byte) (s : State) : Host.Outcome State Fault Refusal :=
  .next (writeV s x (sumByte (readV s x) nn))

/-- `8xy0` LD Vx, Vy (R90). -/
def execLdVxVy (x y : Nibble) (s : State) : Host.Outcome State Fault Refusal :=
  .next (writeV s x (readV s y))

/-- `8xy1` OR Vx, Vy (R91). -/
def execOrVxVy (x y : Nibble) (s : State) : Host.Outcome State Fault Refusal :=
  .next (writeV s x (readV s x ||| readV s y))

/-- `8xy2` AND Vx, Vy (R92). -/
def execAndVxVy (x y : Nibble) (s : State) : Host.Outcome State Fault Refusal :=
  .next (writeV s x (readV s x &&& readV s y))

/-- `8xy3` XOR Vx, Vy (R93). -/
def execXorVxVy (x y : Nibble) (s : State) : Host.Outcome State Fault Refusal :=
  .next (writeV s x (readV s x ^^^ readV s y))

/-- `8xy4` ADD Vx, Vy (R94). -/
def execAddVxVy (x y : Nibble) (s : State) : Host.Outcome State Fault Refusal :=
  .next (writeWithFlag s x (sumByte (readV s x) (readV s y)) (carryOut (readV s x) (readV s y)))

/-- `8xy5` SUB Vx, Vy (R95). -/
def execSubVxVy (x y : Nibble) (s : State) : Host.Outcome State Fault Refusal :=
  .next (writeWithFlag s x (differenceByte (readV s x) (readV s y))
    (notBorrow (readV s x) (readV s y)))

/-- `8xy6` SHR Vx (R96): `y` is not read. -/
def execShrVxVy (x _y : Nibble) (s : State) : Host.Outcome State Fault Refusal :=
  .next (writeWithFlag s x (shiftRightByte (readV s x)) (lowBit (readV s x)))

/-- `8xy7` SUBN Vx, Vy (R97). -/
def execSubnVxVy (x y : Nibble) (s : State) : Host.Outcome State Fault Refusal :=
  .next (writeWithFlag s x (differenceByte (readV s y) (readV s x))
    (notBorrow (readV s y) (readV s x)))

/-- `8xyE` SHL Vx (R98): `y` is not read. -/
def execShlVxVy (x _y : Nibble) (s : State) : Host.Outcome State Fault Refusal :=
  .next (writeWithFlag s x (shiftLeftByte (readV s x)) (highBit (readV s x)))

/-- `Cxnn` RND Vx, nn (R99): the free byte of the cycle, masked (R130; log entry 2). -/
def execRndVxNn (x : Nibble) (nn : Byte) (s : State) : Host.Outcome State Fault Refusal :=
  .next (writeV s x (s.rand &&& nn))

end Sys2Proof.Machine
end

