-- ==== Sys2Proof/Machine/Operands.lean ====
section
/-! DEFINITION. The operand forms beyond a plain register or immediate: the byte at `I` plus an offset,
the register range V0 to Vx, the sprite rows, the decimal digits, the checked key index and the
selected key (spec/30_encoding.md R57; spec/44_index_memory.md R107; spec/45_keypad_timers.md). -/

namespace Sys2Proof.Machine

/-- `I` as the base of a data access, an unbounded natural (R41, R107). -/
def baseAddr (s : State) : Nat := s.index.toNat

/-- How many registers the range V0 to Vx holds, `x` included (R105). -/
def rangeCount (x : Nibble) : Nat := x.toNat + 1

/-- The bytes of V0 to Vx in ascending order (R105). -/
def rangeBytes (s : State) (x : Nibble) : List Byte :=
  (List.range (rangeCount x)).map fun k => readV s (BitVec.ofNat 4 k)

/-- The hundreds, tens and units digit of a byte (R104). -/
def decimalDigits (b : Byte) : List Byte :=
  [BitVec.ofNat 8 (b.toNat / 100), BitVec.ofNat 8 (b.toNat / 10 % 10), BitVec.ofNat 8 (b.toNat % 10)]

/-- The key a register names, or `KeyOutOfRange(k)` above 15 (R108). -/
def keyOperand (k : Byte) : Except FaultRaise Nibble :=
  if k.toNat > 15 then .error ⟨.keyOutOfRange, zextByte k⟩ else .ok (k.setWidth 4)

/-- `K[k]` (R9, R29). -/
def keyDown (K : Keypad) (k : Nibble) : Bool := K[k.toNat]'k.isLt

/-- The keys that are down, in ascending order. -/
def downKeys (K : Keypad) : List Nibble :=
  ((List.range 16).map (BitVec.ofNat 4)).filter (keyDown K)

/-- `KEY_SELECT(K)`: a key that is down, none if no key is; which one when several are is the free
choice `Config.keyChoice` (R6, R111; log entry 6). -/
def keySelect (K : Keypad) : Option Nibble :=
  match downKeys K with
  | [] => none
  | [k] => some k
  | k :: k2 :: rest => some ((k :: k2 :: rest).getD (Config.keyChoice K) k)

end Sys2Proof.Machine
end

