-- ==== Sys2Proof/Machine/ControlFlow.lean ====
section
/-! DEFINITION. Control flow: return, jump, call, the register skips and the indexed jump
(spec/42_control_flow.md R79 to R87). In every meaning `pc` holds the instruction's address plus 2. -/

namespace Sys2Proof.Machine

/-- `00EE` RET (R79). -/
def execRet (s : State) : Host.Outcome State Fault Refusal :=
  .next (settle s (popPc s))

/-- `1nnn` JP nnn (R80). -/
def execJpNnn (nnn : Addr12) (s : State) : Host.Outcome State Fault Refusal :=
  .next (setPc s (zextAddr nnn))

/-- `2nnn` CALL nnn (R81). -/
def execCallNnn (nnn : Addr12) (s : State) : Host.Outcome State Fault Refusal :=
  .next (settle s ((pushPc s).map fun t => setPc t (zextAddr nnn)))

/-- `3xnn` SE Vx, nn (R82). -/
def execSeVxNn (x : Nibble) (nn : Byte) (s : State) : Host.Outcome State Fault Refusal :=
  .next (skipIf (readV s x == nn) s)

/-- `4xnn` SNE Vx, nn (R83). -/
def execSneVxNn (x : Nibble) (nn : Byte) (s : State) : Host.Outcome State Fault Refusal :=
  .next (skipIf (readV s x != nn) s)

/-- `5xy0` SE Vx, Vy (R84). -/
def execSeVxVy (x y : Nibble) (s : State) : Host.Outcome State Fault Refusal :=
  .next (skipIf (readV s x == readV s y) s)

/-- `9xy0` SNE Vx, Vy (R85). -/
def execSneVxVy (x y : Nibble) (s : State) : Host.Outcome State Fault Refusal :=
  .next (skipIf (readV s x != readV s y) s)

/-- `Bnnn` JP V0, nnn (R86): always V0; the sum is reduced to 16 bits only. -/
def execJpV0Nnn (nnn : Addr12) (s : State) : Host.Outcome State Fault Refusal :=
  .next (setPc s (zextAddr nnn + zextByte (readV s 0x0#4)))

end Sys2Proof.Machine
end

