-- ==== Sys2Proof/Machine/Display.lean ====
section
/-! DEFINITION. The display instructions `00E0` and `Dxyn` (spec/41_display.md R76, R77). -/

namespace Sys2Proof.Machine

/-- One set sprite bit: inverts its pixel and records whether the pixel was on (R77). -/
def togglePixel (acc : PixelGrid × Bool) (px py : Nat) : PixelGrid × Bool :=
  (setPixel acc.1 px py (!pixelAt acc.1 px py), acc.2 || pixelAt acc.1 px py)

/-- Columns of one sprite row, bit 7 of the byte first (R77). `js` lists the columns still to draw. -/
def drawColumns (px0 py : Nat) (row : Byte) : List Nat → PixelGrid × Bool → PixelGrid × Bool
  | [], acc => acc
  | j :: js, acc =>
    drawColumns px0 py row js (if row.getLsbD (7 - j) then togglePixel acc (px0 + j) py else acc)

/-- Sprite rows from row coordinate `py` down; the coordinates wrap at the pixel (R77). -/
def drawRows (px0 : Nat) : Nat → List Byte → PixelGrid × Bool → PixelGrid × Bool
  | _, [], acc => acc
  | py, row :: rows, acc => drawRows px0 (py + 1) rows (drawColumns px0 py row (List.range 8) acc)

/-- Draws a sprite at a column and row, with the collision flag cleared first (R77). -/
def drawSprite (g : PixelGrid) (px0 py0 : Nat) (rows : List Byte) : PixelGrid × Bool :=
  drawRows px0 py0 rows (g, false)

/-- The effect of `Dxyn`: coordinates and sprite are read before any write, VF is written last (R77). -/
def drawEffect (x y n : Nibble) (s : State) : Except FaultRaise State :=
  match memReadBytes s.mem (baseAddr s) n.toNat with
  | .error f => .error f
  | .ok rows =>
    let drawn := drawSprite s.fb (readV s x).toNat (readV s y).toNat rows
    .ok (writeFlag { s with fb := drawn.1 } drawn.2)

/-- `00E0` CLS (R76). -/
def execCls (s : State) : Host.Outcome State Fault Refusal :=
  .next { s with fb := blankGrid }

/-- `Dxyn` DRW Vx, Vy, n (R77). -/
def execDrwVxVyN (x y n : Nibble) (s : State) : Host.Outcome State Fault Refusal :=
  .next (settle s (drawEffect x y n s))

end Sys2Proof.Machine
end

