-- ==== Sys2Proof/Machine/IndexMemory.lean ====
section
/-! DEFINITION. The index register and the instructions that move data between registers and memory
(spec/44_index_memory.md R101 to R107). Every check precedes the first write (R42). -/

namespace Sys2Proof.Machine

/-- Stores bytes from `I` upward (R42, R107). -/
def storeAtIndex (s : State) (bytes : List Byte) : Except FaultRaise State :=
  (memWriteBytes s.mem (baseAddr s) bytes).map fun m => { s with mem := m }

/-- `Annn` LD I, nnn (R101). -/
def execLdINnn (nnn : Addr12) (s : State) : Host.Outcome State Fault Refusal :=
  .next (setIndex s (zextAddr nnn))

/-- `Fx1E` ADD I, Vx (R102). -/
def execAddIVx (x : Nibble) (s : State) : Host.Outcome State Fault Refusal :=
  .next (writeFlag (setIndex s (indexSum s.index (readV s x))) (indexPast s.index (readV s x)))

/-- `Fx29` LD F, Vx (R103): exactly the unrecognized-word action on its own word (log entry 8). -/
def execLdFVx (x : Nibble) (s : State) : Host.Outcome State Fault Refusal :=
  .next (settle s (unrecognizedAction (encode (.ldFVx x)) s))

/-- `Fx33` LD B, Vx (R104). -/
def execLdBVx (x : Nibble) (s : State) : Host.Outcome State Fault Refusal :=
  .next (settle s (storeAtIndex s (decimalDigits (readV s x))))

/-- `Fx55` LD [I], Vx (R105). -/
def execLdMemVx (x : Nibble) (s : State) : Host.Outcome State Fault Refusal :=
  .next (settle s (storeAtIndex s (rangeBytes s x)))

/-- `Fx65` LD Vx, [I] (R106). -/
def execLdVxMem (x : Nibble) (s : State) : Host.Outcome State Fault Refusal :=
  .next (settle s ((memReadBytes s.mem (baseAddr s) (rangeCount x)).map (writeVFrom s 0)))

end Sys2Proof.Machine
end

