-- ==== Sys2Proof/Machine/KeypadTimers.lean ====
section
/-! DEFINITION. The instructions that read the keypad snapshot or access the timers
(spec/45_keypad_timers.md R108 to R113). -/

namespace Sys2Proof.Machine

/-- `Ex9E` SKP Vx (R108). -/
def execSkpVx (x : Nibble) (s : State) : Host.Outcome State Fault Refusal :=
  .next (settle s ((keyOperand (readV s x)).map fun k => skipIf (keyDown s.keys k) s))

/-- `ExA1` SKNP Vx (R109). -/
def execSknpVx (x : Nibble) (s : State) : Host.Outcome State Fault Refusal :=
  .next (settle s ((keyOperand (readV s x)).map fun k => skipIf (!keyDown s.keys k) s))

/-- `Fx07` LD Vx, DT (R110). -/
def execLdVxDt (x : Nibble) (s : State) : Host.Outcome State Fault Refusal :=
  .next (writeV s x s.dt)

/-- The effect of `Fx0A`: rewinds while no key is down, else stores the selected key (R111). -/
def keyWait (x : Nibble) (s : State) : State :=
  match keySelect s.keys with
  | none => rewindPc s
  | some k => writeV s x (k.setWidth 8)

/-- `Fx0A` LD Vx, K (R111). -/
def execLdVxK (x : Nibble) (s : State) : Host.Outcome State Fault Refusal :=
  .next (keyWait x s)

/-- `Fx15` LD DT, Vx (R112). -/
def execLdDtVx (x : Nibble) (s : State) : Host.Outcome State Fault Refusal :=
  .next { s with dt := readV s x }

/-- `Fx18` LD ST, Vx (R113). -/
def execLdStVx (x : Nibble) (s : State) : Host.Outcome State Fault Refusal :=
  .next { s with st := readV s x }

end Sys2Proof.Machine
end

