-- ==== Sys2Proof/Machine/HostAgent.lean ====
section
/-! DEFINITION. The host's side: the loader at reset, the timer tick, the keypad refresh, and the turn
the host takes before every cycle (spec/20_memory.md R48; spec/60_exceptions.md R114, R118, R119,
R127, R130, R131; spec/70_reset_and_hazards.md R136, R138). -/

namespace Sys2Proof.Machine

/-- `Reset(rom)`: the state after reset with a ROM, or the load error (R48, R136, R138). -/
def State.load (rom : List Byte) : Except LoadError State :=
  if romFits rom then .ok { State.reset with mem := romCells Config.romBase rom }
  else .error .tooLarge

/-- One decrement, not below 0 (R27, R118). -/
def countDown (b : Byte) : Byte := if b = 0#8 then 0#8 else b - 1#8

/-- `Tick()`: both timers in the same tick; a tick requires a running core (R118). -/
def tick (s : State) : State :=
  match s.status.state with
  | .running => { s with dt := countDown s.dt, st := countDown s.st }
  | .faulted => s

/-- `n` decrements at once, not below 0. A timer at 0 stays there whatever `n` is. -/
def countDownBy (n : Nat) (b : Byte) : Byte := if b = 0#8 then 0#8 else BitVec.ofNat 8 (b.toNat - n)

/-- `n` ticks with no cycle between them, which is `tick` `n` times (Laws: ticks_eq_iterate). -/
def ticks (n : Nat) (s : State) : State :=
  match s.status.state with
  | .running => { s with dt := countDownBy n s.dt, st := countDownBy n s.st }
  | .faulted => s

/-- The host's inputs for the coming cycle: the first one scheduled, else the next free one
(log entry 1). -/
def nextInput (s : State) : HostInput :=
  match s.inputs with
  | [] => Config.hostInput s.inputsTaken
  | h :: _ => h

/-- Consumes the inputs that `nextInput` answers. -/
def dropInput (s : State) : State :=
  match s.inputs with
  | [] => { s with inputsTaken := s.inputsTaken + 1 }
  | _ :: rest => { s with inputs := rest }

/-- The keypad refresh and the random byte of the coming cycle (R127, R130). -/
def refresh (h : HostInput) (s : State) : State := { s with keys := h.keys, rand := h.rand }

/-- The host's turn before a cycle: any number of ticks, then the refresh immediately before the cycle
(R119, R127, R131; log entry 1). -/
def hostTurn (s : State) : State :=
  refresh (nextInput s) (ticks (nextInput s).ticks (dropInput s))

end Sys2Proof.Machine
end

