-- ==== Sys2Proof/Machine/Cycle.lean ====
section
/-! DEFINITION. The cycle: fetch, advance, decode, execute (spec/40_cycle.md R67 to R75), and the
placing of an instruction where the next cycle fetches. -/

namespace Sys2Proof.Machine

/-- Executes a fetched word in the state the advance left: its instruction, or the action of an
unrecognized word (R70 to R72). -/
def execWord (w : Word) (s : State) : Host.Outcome State Fault Refusal :=
  match decodeWord w with
  | .ok i => exec i s
  | .error _ => .next (settle s (unrecognizedAction w s))

/-- `Cycle(K, r)` on a running core; a fetch fault keeps `pc = A` (R68, R75). -/
def cycle (s : State) : Host.Outcome State Fault Refusal :=
  match fetch16 s.mem s.pc.toNat with
  | .error f => .next (enterFault s.pc f s)
  | .ok w => execWord w (advancePc s)

/-- The host's turn and then one cycle; a faulted core has no step of any agent (R67, R118, R126). -/
def hostTurnThenCycle (s : State) : Host.Outcome State Fault Refusal :=
  match s.status.state with
  | .running => cycle (hostTurn s)
  | .faulted => .fault (.coreFaulted s.status)

/-- Stores a word's two bytes, bits 15:8 first, at `pc` and `pc + 1`; where these lie outside memory
nothing is stored (the fetch there faults whatever is stored, R40). -/
def placeWord (s : State) (w : Word) : State :=
  match memWriteBytes s.mem s.pc.toNat (wordBytes w) with
  | .ok m => { s with mem := m }
  | .error _ => s

end Sys2Proof.Machine
end

