-- ==== Sys2Proof/Machine/Step.lean ====
section
/-! DEFINITION. The step of the machine, and the placing of one instruction word where it fetches. -/

namespace Sys2Proof.Machine

/-- One step: the host's turn, then one cycle of the core (R73, R75, R114; log entry 1). -/
def step (s : State) : Host.Outcome State Fault Refusal := hostTurnThenCycle s

/-- The state with the instruction whose `nbits` low bits are `w` (the bits above them zero) stored
where the next cycle fetches; nothing else is needed for it to run (log entry 3). -/
def State.withFetchWord (s : State) (nbits w : Nat) : State :=
  placeWord s (BitVec.ofNat 16 (w % 2 ^ nbits))

end Sys2Proof.Machine
end

