-- ==== Sys2Proof/Safety.lean ====
section
/-! DEFINITION. What claims are stated in terms of: a running core (a faulted state is never a
successful end, spec/70_reset_and_hazards.md R151), the word a cycle fetches, the invariant of the
machine, and the tables of the spec that a claim compares the meanings with. -/

namespace Sys2Proof.Machine

/-- The core can take another cycle (R31, R67). -/
abbrev State.Running (s : State) : Prop := s.status.state = .running

/-- The word a cycle fetches at the program counter, high byte first (R40). -/
def fetchedWord (s : State) : Word :=
  joinBytes (memGet s.mem s.pc.toNat) (memGet s.mem (s.pc.toNat + 1))

/-- A word that is no instruction with an effect of its own: it selects no row, or it is `Fx29`
(R61, R63, R72). -/
def unimplementedWord (w : Word) : Bool :=
  match decodeWord w with
  | .ok (.ldFVx _) => true
  | .ok _ => false
  | .error _ => true

/-- `info` is what the table of R122 gives for the cause. -/
def RunStatus.infoMatches (r : RunStatus) : Bool :=
  match r.cause with
  | .noFault => r.info == 0#16
  | .outOfBounds => decide (r.info.toNat > 4095)
  | .stackUnderflow => r.info == 0#16
  | .stackOverflow => r.info == 0#16
  | .keyOutOfRange => decide (16 ≤ r.info.toNat ∧ r.info.toNat ≤ 255)
  | .unknownOpcode => unimplementedWord r.info

/-- The status record is one R31 and R122 allow: a running core records no fault, a faulted one
records a fault, and `fault_pc` is at most 0x10FE. -/
def RunStatus.wf (r : RunStatus) : Bool :=
  (match r.state with
    | .running => r.cause == .noFault && r.faultPc == 0#16
    | .faulted => r.cause != .noFault)
  && r.infoMatches && decide (r.faultPc.toNat ≤ 0x10FE)

/-- A diagnostic event names the address of a fetched word and a word that is unrecognized or `Fx29`
(R72, R132). -/
def Diagnostic.wf (d : Diagnostic) : Bool :=
  decide (d.addr.toNat ≤ 4094) && unimplementedWord d.word

/-- The invariant: memory is canonical and inside the address space (R36), `pc` is at most 0x10FE
(R21), the stack holds at most 16 return addresses (R25), each at most 0x1000 (R79), the status
record is consistent (R31, R122), and every diagnostic event names an unimplemented word, with none
emitted in strict mode (R72). -/
abbrev State.Inv (s : State) : Prop :=
  Memory.wf s.mem = true ∧ s.pc.toNat ≤ 0x10FE ∧ s.stack.length ≤ Config.stackDepth ∧
  s.stack.all (fun a => decide (a.toNat ≤ 0x1000)) = true ∧ s.status.wf = true ∧
  s.diag.all Diagnostic.wf = true ∧ (s.strictDecode = true → s.diag = [])

/-- A set bit of the sprite of `Dxyn` lands on the pixel (px, py): bit 7 - j of the byte at `I + i`,
for a row `i` below `n` and a column `j` below 8, with the coordinates wrapped (R77). -/
def SpriteHits (s : State) (x y n : Nibble) (px py : Nat) : Prop :=
  ∃ i j : Nat, i < n.toNat ∧ j < 8 ∧ px = ((readV s x).toNat + j) % 64 ∧
    py = ((readV s y).toNat + i) % 32 ∧ (memGet s.mem (s.index.toNat + i)).getLsbD (7 - j) = true

/-- How an instruction that raises no fault leaves `pc`, from the state after the advance: the table
of R20, with the tested conditions of R82 to R85, R108 and R109. -/
def pcAfter (i : Instr) (s : State) : Word :=
  match i with
  | .ret => s.stack.getLastD 0#16
  | .jpNnn nnn => BitVec.ofNat 16 nnn.toNat
  | .callNnn nnn => BitVec.ofNat 16 nnn.toNat
  | .jpV0Nnn nnn => BitVec.ofNat 16 (nnn.toNat + (readV s 0#4).toNat)
  | .seVxNn x nn => if readV s x = nn then s.pc + 2#16 else s.pc
  | .sneVxNn x nn => if readV s x = nn then s.pc else s.pc + 2#16
  | .seVxVy x y => if readV s x = readV s y then s.pc + 2#16 else s.pc
  | .sneVxVy x y => if readV s x = readV s y then s.pc else s.pc + 2#16
  | .skpVx x => if s.keys[(readV s x).toNat]? = some true then s.pc + 2#16 else s.pc
  | .sknpVx x => if s.keys[(readV s x).toNat]? = some true then s.pc else s.pc + 2#16
  | .ldVxK _ => if ∃ k : Fin 16, s.keys[k] = true then s.pc else s.pc - 2#16
  | .cls | .ldVxNn _ _ | .addVxNn _ _ | .ldVxVy _ _ | .orVxVy _ _ | .andVxVy _ _ | .xorVxVy _ _
  | .addVxVy _ _ | .subVxVy _ _ | .shrVxVy _ _ | .subnVxVy _ _ | .shlVxVy _ _ | .ldINnn _
  | .rndVxNn _ _ | .drwVxVyN _ _ _ | .ldVxDt _ | .ldDtVx _ | .ldStVx _ | .addIVx _ | .ldFVx _
  | .ldBVx _ | .ldMemVx _ | .ldVxMem _ => s.pc

/-- The instructions that set VF as flag (R16). -/
def setsFlag (i : Instr) : Bool :=
  match i with
  | .addVxVy _ _ | .subVxVy _ _ | .shrVxVy _ _ | .subnVxVy _ _ | .shlVxVy _ _ | .drwVxVyN _ _ _
  | .addIVx _ => true
  | .cls | .ret | .jpNnn _ | .callNnn _ | .seVxNn _ _ | .sneVxNn _ _ | .seVxVy _ _ | .ldVxNn _ _
  | .addVxNn _ _ | .ldVxVy _ _ | .orVxVy _ _ | .andVxVy _ _ | .xorVxVy _ _ | .sneVxVy _ _
  | .ldINnn _ | .jpV0Nnn _ | .rndVxNn _ _ | .skpVx _ | .sknpVx _ | .ldVxDt _ | .ldVxK _
  | .ldDtVx _ | .ldStVx _ | .ldFVx _ | .ldBVx _ | .ldMemVx _ | .ldVxMem _ => false

/-- Whether register `r` is an ordinary destination of the instruction: the Vx of the writes column
of R18, and V0 to Vx for `Fx65`. -/
def isDestination (i : Instr) (r : Nibble) : Bool :=
  match i with
  | .ldVxNn x _ | .addVxNn x _ | .ldVxVy x _ | .orVxVy x _ | .andVxVy x _ | .xorVxVy x _
  | .addVxVy x _ | .subVxVy x _ | .shrVxVy x _ | .subnVxVy x _ | .shlVxVy x _ | .rndVxNn x _
  | .ldVxDt x | .ldVxK x => r == x
  | .ldVxMem x => decide (r.toNat ≤ x.toNat)
  | .cls | .ret | .jpNnn _ | .callNnn _ | .seVxNn _ _ | .sneVxNn _ _ | .seVxVy _ _ | .sneVxVy _ _
  | .ldINnn _ | .jpV0Nnn _ | .drwVxVyN _ _ _ | .skpVx _ | .sknpVx _ | .ldDtVx _ | .ldStVx _
  | .addIVx _ | .ldFVx _ | .ldBVx _ | .ldMemVx _ => false

/-- How many bytes an instruction stores from `I` upward (R45). -/
def storeCount (i : Instr) : Nat :=
  match i with
  | .ldBVx _ => 3
  | .ldMemVx x => x.toNat + 1
  | .cls | .ret | .jpNnn _ | .callNnn _ | .seVxNn _ _ | .sneVxNn _ _ | .seVxVy _ _ | .ldVxNn _ _
  | .addVxNn _ _ | .ldVxVy _ _ | .orVxVy _ _ | .andVxVy _ _ | .xorVxVy _ _ | .addVxVy _ _
  | .subVxVy _ _ | .shrVxVy _ _ | .subnVxVy _ _ | .shlVxVy _ _ | .sneVxVy _ _ | .ldINnn _
  | .jpV0Nnn _ | .rndVxNn _ _ | .drwVxVyN _ _ _ | .skpVx _ | .sknpVx _ | .ldVxDt _ | .ldVxK _
  | .ldDtVx _ | .ldStVx _ | .addIVx _ | .ldFVx _ | .ldVxMem _ => 0

end Sys2Proof.Machine
end

