-- ==== Sys2Proof/Certificates/Slice0/Obligations.lean ====
section
/-! DEFINITION. The statements for the provers, in the order of OBLIGATIONS.json: encoding, the cycle and
its faults, reset and the host's turn, each instruction's result with its frame, and the rules of the
whole machine. An instruction is executed in the state the advance left, so `s.pc` is A + 2. -/

open Sys2Proof Sys2Proof.Machine

/-! ### Encoding -/

/-- R55 to R59 on written-out words, at least one per family. -/
def Obligations.WrittenWordsDecode : Prop :=
  decodeWord 0x00E0#16 = .ok .cls ∧ decodeWord 0xD12A#16 = .ok (.drwVxVyN 1#4 2#4 0xA#4) ∧
  decodeWord 0x00EE#16 = .ok .ret ∧ decodeWord 0x1200#16 = .ok (.jpNnn 0x200#12) ∧
  decodeWord 0x3342#16 = .ok (.seVxNn 3#4 0x42#8) ∧ decodeWord 0x5120#16 = .ok (.seVxVy 1#4 2#4) ∧
  decodeWord 0x6A12#16 = .ok (.ldVxNn 0xA#4 0x12#8) ∧
  decodeWord 0x8127#16 = .ok (.subnVxVy 1#4 2#4) ∧
  decodeWord 0xA300#16 = .ok (.ldINnn 0x300#12) ∧ decodeWord 0xF255#16 = .ok (.ldMemVx 2#4) ∧
  decodeWord 0xE59E#16 = .ok (.skpVx 5#4) ∧ decodeWord 0xF315#16 = .ok (.ldDtVx 3#4) ∧
  decodeWord 0x5121#16 = .error (.unrecognized .class5) ∧
  decodeWord 0x0123#16 = .error (.unrecognized .class0)

/-- R55: every field is a fixed bit range of the word, and a word is fetched from two bytes, the first
being its high byte. -/
def Obligations.FieldsAreFixedBitRanges : Prop :=
  (∀ w : Word,
    (fieldsOf w).op.toNat = w.toNat / 4096 ∧
    (fieldsOf w).x.toNat = w.toNat / 256 % 16 ∧ (fieldsOf w).y.toNat = w.toNat / 16 % 16 ∧
    (fieldsOf w).n.toNat = w.toNat % 16 ∧ (fieldsOf w).nn.toNat = w.toNat % 256 ∧
    (fieldsOf w).nnn.toNat = w.toNat % 4096) ∧
  (∀ (hi lo : Byte) (rest : List Byte), ∃ w : Word,
    w.toNat = hi.toNat * 256 + lo.toNat ∧
    decode (hi :: lo :: rest) = (decodeWord w).map fun i => (i, rest))

/-- Decoding the bytes of an instruction gives the instruction, whatever bytes follow: no bit of an
operand is dropped. Every `Instr` is well-formed (its operands have the exact field widths). -/
def Obligations.DecodeOfEncodeIsTheInstruction : Prop :=
  ∀ (i : Instr) (rest : List Byte), decode (encodeBytes i ++ rest) = .ok (i, rest)

/-- Where a word decodes, it is the word of the instruction it decodes to. -/
def Obligations.EncodeOfDecodeIsTheWord : Prop :=
  ∀ (w : Word) (i : Instr), decodeWord w = .ok i → encode i = w

/-- The decoder and the opcode map of R59 agree on every word: a word that decodes selects the row of
its instruction, and a word that is rejected selects no row. -/
def Obligations.DecoderAgreesWithOpcodeMap : Prop :=
  ∀ w : Word,
    (∀ i, decodeWord w = .ok i →
      ∃ row ∈ opcodeMap, row.mnemonic = i.mnemonic ∧ row.selects w = true) ∧
    (∀ e, decodeWord w = .error e → ∀ row ∈ opcodeMap, row.selects w = false)

/-- R60: two different rows differ in a bit that both masks cover, so a word selects at most one. -/
def Obligations.OpcodeRowsAreDisjoint : Prop :=
  (∀ r₁ ∈ opcodeMap, ∀ r₂ ∈ opcodeMap, r₁ ≠ r₂ →
    r₁.pattern &&& (r₁.mask &&& r₂.mask) ≠ r₂.pattern &&& (r₁.mask &&& r₂.mask)) ∧
  (∀ w : Word, ∀ r₁ ∈ opcodeMap, ∀ r₂ ∈ opcodeMap,
    r₁.selects w = true → r₂.selects w = true → r₁ = r₂)

/-- The unrecognized space is exactly the six parts the table of R61 names, R62 among them. -/
def Obligations.UnrecognizedSpaceIsExact : Prop :=
  ∀ w : Word, (∃ e, decodeWord w = .error e) ↔
    ((fieldsOf w).op = 0x0#4 ∧ w ≠ 0x00E0#16 ∧ w ≠ 0x00EE#16) ∨
    ((fieldsOf w).op = 0x5#4 ∧ (fieldsOf w).n ≠ 0x0#4) ∨
    ((fieldsOf w).op = 0x9#4 ∧ (fieldsOf w).n ≠ 0x0#4) ∨
    ((fieldsOf w).op = 0x8#4 ∧
      (fieldsOf w).n ∈ [0x8#4, 0x9#4, 0xA#4, 0xB#4, 0xC#4, 0xD#4, 0xF#4]) ∨
    ((fieldsOf w).op = 0xE#4 ∧ (fieldsOf w).nn ∉ [0x9E#8, 0xA1#8]) ∨
    ((fieldsOf w).op = 0xF#4 ∧
      (fieldsOf w).nn ∉ [0x07#8, 0x0A#8, 0x15#8, 0x18#8, 0x1E#8, 0x29#8, 0x33#8, 0x55#8, 0x65#8])

/-! ### The cycle and its faults -/

/-- R40: a fetch reads two bytes, the first the high one, and faults for the first of its two addresses
above 4095. -/
def Obligations.FetchIsBigEndianAndChecked : Prop :=
  ∀ (m : List Host.Cell) (addr : Nat),
    (addr > 4095 → fetch16 m addr = .error ⟨.outOfBounds, BitVec.ofNat 16 addr⟩) ∧
    (addr = 4095 → fetch16 m addr = .error ⟨.outOfBounds, 4096#16⟩) ∧
    (addr < 4095 → ∃ w : Word, fetch16 m addr = .ok w ∧
      w.toNat = (memGet m addr).toNat * 256 + (memGet m (addr + 1)).toNat)

/-- A step of a running core whose fetched bytes decode to `i` is `exec i` in the state that the host's
turn and the advance left (R69 to R71). The host's turn (the model's, log entry 1) changes the timers
(not upward), the snapshot and the random byte of the cycle and the model's own input fields, and
nothing else. -/
def Obligations.StepRunsTheDecodedInstruction : Prop :=
  ∀ (s : State) (i : Instr), s.Running → s.pc.toNat ≤ 4094 →
    decode [memGet s.mem s.pc.toNat, memGet s.mem (s.pc.toNat + 1)] = .ok (i, []) →
    step s = exec i (advancePc (hostTurn s)) ∧
    (advancePc (hostTurn s)).pc.toNat = s.pc.toNat + 2 ∧
    ∃ dt st keys rand inputs taken,
      advancePc (hostTurn s) =
        { s with
          pc := s.pc + 2#16, dt := dt, st := st, keys := keys, rand := rand, inputs := inputs,
          inputsTaken := taken } ∧
      dt.toNat ≤ s.dt.toNat ∧ st.toNat ≤ s.st.toNat ∧
      keys = (nextInput s).keys ∧ rand = (nextInput s).rand

/-- R72: an unrecognized word or `Fx29` appends `Diagnostic(A, w)` and changes nothing else but the
advance, or raises `UnknownOpcode(w)` in strict mode. The host's turn before the cycle is the model's
(log entry 1). -/
def Obligations.StepOnUnrecognizedWord : Prop :=
  ∀ s : State, s.Running → s.pc.toNat ≤ 4094 → unimplementedWord (fetchedWord s) = true →
    (s.strictDecode = false →
      step s = .next { hostTurn s with
        pc := s.pc + 2#16, diag := s.diag ++ [⟨s.pc, fetchedWord s⟩] }) ∧
    (s.strictDecode = true →
      step s = .next { hostTurn s with
        pc := s.pc + 2#16, status := ⟨.faulted, .unknownOpcode, s.pc, fetchedWord s⟩ })

/-- R68: a fetch that faults leaves `pc` at A and records the fault, and nothing else changes; R124
gives the address it reports. The host's turn before the cycle is the model's (log entry 1). -/
def Obligations.FetchFaultKeepsPc : Prop :=
  ∀ s : State, s.Running → 4094 < s.pc.toNat →
    step s = .next { hostTurn s with
      status := ⟨.faulted, .outOfBounds, s.pc, if 4095 < s.pc.toNat then s.pc else s.pc + 1#16⟩ }

/-- R67 and R126: the step is enabled exactly on a running core; a faulted one has no step (the model says
so with `Fault.coreFaulted`, log entry 5) and takes no tick. -/
def Obligations.StepEnabledExactlyWhenRunning : Prop :=
  ∀ s : State,
    ((∃ t, step s = .next t) ↔ s.status.state = .running) ∧
    (s.status.state = .faulted → step s = .fault (.coreFaulted s.status) ∧ tick s = s)

/-- R123: a step that faults changes, beside the host's turn before the cycle (the model's, log entry 1),
only the status record and, for a fault in its execute phase, the advance of `pc`. -/
def Obligations.FaultEntryWritesOnlyStatus : Prop :=
  ∀ s t : State, s.Running → step s = .next t → ¬ t.Running →
    t = { hostTurn s with pc := t.pc, status := t.status } ∧
    t.status.state = .faulted ∧ t.status.cause ≠ .noFault ∧ t.status.faultPc = s.pc ∧
    t.pc = (if s.pc.toNat ≤ 4094 then s.pc + 2#16 else s.pc)

/-- R122 and R124: which instruction raises which fault, with which `info`, and the numeric codes. -/
def Obligations.FaultCausesAndInfo : Prop :=
  (∀ s t : State, s.Running → step s = .next t → ¬ t.Running →
    match t.status.cause with
    | .noFault => False
    | .outOfBounds =>
        (4094 < s.pc.toNat ∧ t.status.info.toNat = max s.pc.toNat 4096) ∨
        (s.pc.toNat ≤ 4094 ∧
          ∃ i, decodeWord (fetchedWord s) = .ok i ∧ t.status.info.toNat = max s.index.toNat 4096 ∧
            ((∃ x y n, i = .drwVxVyN x y n) ∨ (∃ x, i = .ldBVx x) ∨ (∃ x, i = .ldMemVx x) ∨
              ∃ x, i = .ldVxMem x))
    | .stackUnderflow => decodeWord (fetchedWord s) = .ok .ret ∧ t.status.info = 0#16
    | .stackOverflow =>
        (∃ nnn, decodeWord (fetchedWord s) = .ok (.callNnn nnn)) ∧ t.status.info = 0#16
    | .keyOutOfRange =>
        ∃ x, (decodeWord (fetchedWord s) = .ok (.skpVx x) ∨
            decodeWord (fetchedWord s) = .ok (.sknpVx x)) ∧
          15 < (readV s x).toNat ∧ t.status.info.toNat = (readV s x).toNat
    | .unknownOpcode =>
        s.strictDecode = true ∧ unimplementedWord (fetchedWord s) = true ∧
          t.status.info = fetchedWord s) ∧
  faultCode .noFault = 0#4 ∧ faultCode .outOfBounds = 1#4 ∧ faultCode .stackUnderflow = 2#4 ∧
  faultCode .stackOverflow = 3#4 ∧ faultCode .keyOutOfRange = 4#4 ∧ faultCode .unknownOpcode = 5#4

/-! ### The invariant, reset and the host's turn -/

/-- The model's reset state, which is the reset with the empty ROM (log entry 3), meets the model's
invariant; its clause on canonical memory is the model's form of memory (log entry 9). -/
def Obligations.ResetMeetsInvariant : Prop := State.reset.Inv

/-- Every step keeps the invariant, from every state that meets it. The bounds on `pc` and the stack, the
status record and the diagnostic events are the spec's (R21, R25, R31, R72, R79, R122); the canonical
form of memory is the model's own (log entry 9). -/
def Obligations.EveryStepKeepsInvariant : Prop :=
  ∀ s t : State, s.Inv → step s = .next t → t.Inv

/-- R35 and R136: what reset leaves, for every ROM; R48: the load, and its failure past 3584 bytes. -/
def Obligations.LoadLaysRomAndResetsState : Prop :=
  ∀ rom : List Byte,
    (rom.length + 512 ≤ 4096 → ∃ s, State.load rom = .ok s ∧
      (∀ a, memGet s.mem a = if 512 ≤ a then rom.getD (a - 512) 0#8 else 0#8) ∧
      (∀ r, readV s r = 0#8) ∧ s.index = 0#16 ∧ s.pc = 0x200#16 ∧ s.stack = [] ∧
      s.dt = 0#8 ∧ s.st = 0#8 ∧ (∀ px py, pixelAt s.fb px py = false) ∧
      (∀ k : Fin 16, s.keys[k] = false) ∧ s.status = ⟨.running, .noFault, 0#16, 0#16⟩ ∧
      s.diag = []) ∧
    (4096 < rom.length + 512 → State.load rom = .error .tooLarge)

/-- R118: a tick of a running core decrements both timers, not below 0, and changes nothing else; a
faulted core takes none. -/
def Obligations.TickDecrementsBothTimers : Prop :=
  ∀ s : State,
    (s.Running → tick s = { s with dt := (tick s).dt, st := (tick s).st } ∧
      (tick s).dt.toNat = s.dt.toNat - 1 ∧ (tick s).st.toNat = s.st.toNat - 1) ∧
    (¬ s.Running → tick s = s)

/-- The model's host turn (log entry 1), after R119, R127 and R130: whatever the host schedules before a cycle (any number of ticks, any snapshot,
any random byte), the host's turn does exactly that and consumes it. -/
def Obligations.HostTurnFollowsItsSchedule : Prop :=
  ∀ (s : State) (h : HostInput) (rest : List HostInput), s.Running →
    hostTurn { s with inputs := h :: rest } =
      { tick^[h.ticks] { s with inputs := rest } with keys := h.keys, rand := h.rand }

/-- R146: no step of a running core raises a timer, a step on an unrecognized word and a fetch fault
among them, except a step of the instruction that sets it; that one leaves exactly Vx, not decremented
in the cycle that sets it (R112). That the value is Vx after the whole step rests on the model's form of
a step, in which the ticks stand before the cycle (log entry 1). -/
def Obligations.TimersNeverIncreaseUnlessSet : Prop :=
  ∀ s t : State, s.Running → step s = .next t →
    ((¬ ∃ x, s.pc.toNat ≤ 4094 ∧ decodeWord (fetchedWord s) = .ok (.ldDtVx x)) →
      t.dt.toNat ≤ s.dt.toNat) ∧
    (∀ x, s.pc.toNat ≤ 4094 → decodeWord (fetchedWord s) = .ok (.ldDtVx x) → t.dt = readV s x) ∧
    ((¬ ∃ x, s.pc.toNat ≤ 4094 ∧ decodeWord (fetchedWord s) = .ok (.ldStVx x)) →
      t.st.toNat ≤ s.st.toNat) ∧
    (∀ x, s.pc.toNat ≤ 4094 → decodeWord (fetchedWord s) = .ok (.ldStVx x) → t.st = readV s x)

/-! ### Display -/

/-- R76. -/
def Obligations.ClearTurnsEveryPixelOff : Prop :=
  decodeWord 0x00E0#16 = .ok .cls ∧
  ∀ s : State, ∃ t, exec .cls s = .next t ∧ t = { s with fb := t.fb } ∧
    ∀ px py, pixelAt t.fb px py = false

/-- R77: the pixels a set sprite bit lands on are inverted and no others, VF tells whether one of them
was on, and nothing else changes; or the bounds fault with no write. -/
def Obligations.DrawXorsSpriteAndSetsCollision : Prop :=
  ∀ (x y n : Nibble) (s : State),
    decodeWord (0xD#4 ++ x ++ y ++ n) = .ok (.drwVxVyN x y n) ∧
    (n = 0#4 ∨ s.index.toNat + n.toNat ≤ 4096 →
      ∃ t, exec (.drwVxVyN x y n) s = .next t ∧ t = { s with fb := t.fb, v := t.v } ∧
        (∀ px py, px < 64 → py < 32 →
          (SpriteHits s x y n px py → pixelAt t.fb px py = !pixelAt s.fb px py) ∧
          (¬ SpriteHits s x y n px py → pixelAt t.fb px py = pixelAt s.fb px py)) ∧
        (∀ r, r ≠ 0xF#4 → readV t r = readV s r) ∧
        ((∃ px py, px < 64 ∧ py < 32 ∧ SpriteHits s x y n px py ∧ pixelAt s.fb px py = true) →
          readV t 0xF#4 = 1#8) ∧
        ((¬ ∃ px py, px < 64 ∧ py < 32 ∧ SpriteHits s x y n px py ∧ pixelAt s.fb px py = true) →
          readV t 0xF#4 = 0#8)) ∧
    (n ≠ 0#4 → 4096 < s.index.toNat + n.toNat →
      exec (.drwVxVyN x y n) s = .next { s with
        status := ⟨.faulted, .outOfBounds, s.pc - 2#16,
          BitVec.ofNat 16 (max s.index.toNat 4096)⟩ })

/-- R78: a full sprite byte inverts its eight pixels, and VF is 1 exactly when one of them was on
(`pixelAt` reduces its coordinates modulo 64 and 32). -/
def Obligations.FullSpriteByteFlipsEightPixels : Prop :=
  ∀ (x y : Nibble) (s : State), s.index.toNat ≤ 4095 → memGet s.mem s.index.toNat = 0xFF#8 →
    ∃ t, exec (.drwVxVyN x y 1#4) s = .next t ∧
      (∀ j, j < 8 → pixelAt t.fb ((readV s x).toNat + j) (readV s y).toNat =
        !pixelAt s.fb ((readV s x).toNat + j) (readV s y).toNat) ∧
      (readV t 0xF#4 = 1#8 ↔
        ∃ j, j < 8 ∧ pixelAt s.fb ((readV s x).toNat + j) (readV s y).toNat = true) ∧
      (readV t 0xF#4 = 0#8 ∨ readV t 0xF#4 = 1#8)

/-! ### Control flow -/

/-- R79. -/
def Obligations.ReturnPopsOrUnderflows : Prop :=
  decodeWord 0x00EE#16 = .ok .ret ∧
  ∀ s : State,
    (∀ below top, s.stack = below ++ [top] →
      exec .ret s = .next { s with pc := top, stack := below }) ∧
    (s.stack = [] →
      exec .ret s = .next { s with status := ⟨.faulted, .stackUnderflow, s.pc - 2#16, 0#16⟩ })

/-- R80. -/
def Obligations.JumpSetsPc : Prop :=
  ∀ (nnn : Addr12) (s : State),
    decodeWord (0x1#4 ++ nnn) = .ok (.jpNnn nnn) ∧
    ∃ t, exec (.jpNnn nnn) s = .next t ∧ t = { s with pc := t.pc } ∧ t.pc.toNat = nnn.toNat

/-- R81: the pushed value is the address after the call. -/
def Obligations.CallPushesOrOverflows : Prop :=
  ∀ (nnn : Addr12) (s : State),
    decodeWord (0x2#4 ++ nnn) = .ok (.callNnn nnn) ∧
    (s.stack.length < 16 → ∃ t, exec (.callNnn nnn) s = .next t ∧
      t = { s with pc := t.pc, stack := s.stack ++ [s.pc] } ∧ t.pc.toNat = nnn.toNat) ∧
    (s.stack.length = 16 →
      exec (.callNnn nnn) s =
        .next { s with status := ⟨.faulted, .stackOverflow, s.pc - 2#16, 0#16⟩ })

/-- R82 and R83: the two skips on a byte are complementary. -/
def Obligations.ByteSkips : Prop :=
  ∀ (x : Nibble) (nn : Byte) (s : State),
    decodeWord (0x3#4 ++ x ++ nn) = .ok (.seVxNn x nn) ∧
    decodeWord (0x4#4 ++ x ++ nn) = .ok (.sneVxNn x nn) ∧
    (readV s x = nn → exec (.seVxNn x nn) s = .next { s with pc := s.pc + 2#16 } ∧
      exec (.sneVxNn x nn) s = .next s) ∧
    (readV s x ≠ nn → exec (.seVxNn x nn) s = .next s ∧
      exec (.sneVxNn x nn) s = .next { s with pc := s.pc + 2#16 })

/-- R84 and R85: the two skips on a register are complementary; with a low nibble other than 0 the two
patterns are unrecognized words. -/
def Obligations.RegisterSkips : Prop :=
  ∀ (x y : Nibble) (s : State),
    decodeWord (0x5#4 ++ x ++ y ++ 0x0#4) = .ok (.seVxVy x y) ∧
    decodeWord (0x9#4 ++ x ++ y ++ 0x0#4) = .ok (.sneVxVy x y) ∧
    (∀ n, n ≠ 0x0#4 → decodeWord (0x5#4 ++ x ++ y ++ n) = .error (.unrecognized .class5) ∧
      decodeWord (0x9#4 ++ x ++ y ++ n) = .error (.unrecognized .class9)) ∧
    (readV s x = readV s y → exec (.seVxVy x y) s = .next { s with pc := s.pc + 2#16 } ∧
      exec (.sneVxVy x y) s = .next s) ∧
    (readV s x ≠ readV s y → exec (.seVxVy x y) s = .next s ∧
      exec (.sneVxVy x y) s = .next { s with pc := s.pc + 2#16 })

/-- R86: always V0, and the sum is not reduced to 12 bits. -/
def Obligations.IndexedJumpAddsV0 : Prop :=
  ∀ (nnn : Addr12) (s : State),
    decodeWord (0xB#4 ++ nnn) = .ok (.jpV0Nnn nnn) ∧
    ∃ t, exec (.jpV0Nnn nnn) s = .next t ∧ t = { s with pc := t.pc } ∧
      t.pc.toNat = nnn.toNat + (readV s 0x0#4).toNat

/-- The property of R87: a return from a called subroutine goes to the instruction after the call and
leaves the stack as it was, in every state with the stack the call left. -/
def Obligations.CallThenReturnRestoresPc : Prop :=
  ∀ (nnn : Addr12) (s : State), s.stack.length < 16 →
    ∃ t, exec (.callNnn nnn) s = .next t ∧
      ∀ u : State, u.stack = t.stack →
        exec .ret u = .next { u with pc := s.pc, stack := s.stack }

/-! ### Registers and arithmetic -/

/-- R88. -/
def Obligations.LoadByteWritesVx : Prop :=
  ∀ (x : Nibble) (nn : Byte) (s : State),
    decodeWord (0x6#4 ++ x ++ nn) = .ok (.ldVxNn x nn) ∧
    ∃ t, exec (.ldVxNn x nn) s = .next t ∧ t = { s with v := t.v } ∧
      ∀ r, readV t r = if r = x then nn else readV s r

/-- R89: the sum modulo 256, and VF is not written as flag. -/
def Obligations.AddByteWrapsWithoutFlag : Prop :=
  ∀ (x : Nibble) (nn : Byte) (s : State),
    decodeWord (0x7#4 ++ x ++ nn) = .ok (.addVxNn x nn) ∧
    ∃ t, exec (.addVxNn x nn) s = .next t ∧ t = { s with v := t.v } ∧
      (readV t x).toNat = ((readV s x).toNat + nn.toNat) % 256 ∧
      ∀ r, r ≠ x → readV t r = readV s r

/-- R90 to R93: the copy and the three bitwise instructions, bit by bit; VF is not reset. -/
def Obligations.CopyAndBitwiseWriteOnlyVx : Prop :=
  ∀ (x y : Nibble) (s : State),
    decodeWord (0x8#4 ++ x ++ y ++ 0x0#4) = .ok (.ldVxVy x y) ∧
    decodeWord (0x8#4 ++ x ++ y ++ 0x1#4) = .ok (.orVxVy x y) ∧
    decodeWord (0x8#4 ++ x ++ y ++ 0x2#4) = .ok (.andVxVy x y) ∧
    decodeWord (0x8#4 ++ x ++ y ++ 0x3#4) = .ok (.xorVxVy x y) ∧
    (∃ t, exec (.ldVxVy x y) s = .next t ∧ t = { s with v := t.v } ∧
      readV t x = readV s y ∧ ∀ r, r ≠ x → readV t r = readV s r) ∧
    (∃ t, exec (.orVxVy x y) s = .next t ∧ t = { s with v := t.v } ∧
      (∀ k, (readV t x).getLsbD k = ((readV s x).getLsbD k || (readV s y).getLsbD k)) ∧
      ∀ r, r ≠ x → readV t r = readV s r) ∧
    (∃ t, exec (.andVxVy x y) s = .next t ∧ t = { s with v := t.v } ∧
      (∀ k, (readV t x).getLsbD k = ((readV s x).getLsbD k && (readV s y).getLsbD k)) ∧
      ∀ r, r ≠ x → readV t r = readV s r) ∧
    (∃ t, exec (.xorVxVy x y) s = .next t ∧ t = { s with v := t.v } ∧
      (∀ k, (readV t x).getLsbD k = ((readV s x).getLsbD k ^^ (readV s y).getLsbD k)) ∧
      ∀ r, r ≠ x → readV t r = readV s r)

/-- R94: sum and carry from the old operands, the carry written last. -/
def Obligations.AddSetsCarry : Prop :=
  ∀ (x y : Nibble) (s : State),
    decodeWord (0x8#4 ++ x ++ y ++ 0x4#4) = .ok (.addVxVy x y) ∧
    ∃ t, exec (.addVxVy x y) s = .next t ∧ t = { s with v := t.v } ∧
      readV t 0xF#4 = (if (readV s x).toNat + (readV s y).toNat > 255 then 1#8 else 0#8) ∧
      (x ≠ 0xF#4 → (readV t x).toNat = ((readV s x).toNat + (readV s y).toNat) % 256) ∧
      ∀ r, r ≠ x → r ≠ 0xF#4 → readV t r = readV s r

/-- R95 and R97: difference and not-borrow from the old operands, the flag written last; equality is no
borrow. -/
def Obligations.SubtractionsSetNotBorrow : Prop :=
  ∀ (x y : Nibble) (s : State),
    decodeWord (0x8#4 ++ x ++ y ++ 0x5#4) = .ok (.subVxVy x y) ∧
    decodeWord (0x8#4 ++ x ++ y ++ 0x7#4) = .ok (.subnVxVy x y) ∧
    (∃ t, exec (.subVxVy x y) s = .next t ∧ t = { s with v := t.v } ∧
      readV t 0xF#4 = (if (readV s y).toNat ≤ (readV s x).toNat then 1#8 else 0#8) ∧
      (x ≠ 0xF#4 → (readV t x).toNat = ((readV s x).toNat + 256 - (readV s y).toNat) % 256) ∧
      ∀ r, r ≠ x → r ≠ 0xF#4 → readV t r = readV s r) ∧
    (∃ t, exec (.subnVxVy x y) s = .next t ∧ t = { s with v := t.v } ∧
      readV t 0xF#4 = (if (readV s x).toNat ≤ (readV s y).toNat then 1#8 else 0#8) ∧
      (x ≠ 0xF#4 → (readV t x).toNat = ((readV s y).toNat + 256 - (readV s x).toNat) % 256) ∧
      ∀ r, r ≠ x → r ≠ 0xF#4 → readV t r = readV s r)

/-- R96 and R98: shifts of Vx by one, the bit moved out written to VF last; Vy is not read. -/
def Obligations.ShiftsMoveOneBitToFlag : Prop :=
  ∀ (x y : Nibble) (s : State),
    decodeWord (0x8#4 ++ x ++ y ++ 0x6#4) = .ok (.shrVxVy x y) ∧
    decodeWord (0x8#4 ++ x ++ y ++ 0xE#4) = .ok (.shlVxVy x y) ∧
    (∃ t, exec (.shrVxVy x y) s = .next t ∧ t = { s with v := t.v } ∧
      (readV t 0xF#4).toNat = (readV s x).toNat % 2 ∧
      (x ≠ 0xF#4 → (readV t x).toNat = (readV s x).toNat / 2) ∧
      ∀ r, r ≠ x → r ≠ 0xF#4 → readV t r = readV s r) ∧
    (∃ t, exec (.shlVxVy x y) s = .next t ∧ t = { s with v := t.v } ∧
      (readV t 0xF#4).toNat = (readV s x).toNat / 128 ∧
      (x ≠ 0xF#4 → (readV t x).toNat = (readV s x).toNat * 2 % 256) ∧
      ∀ r, r ≠ x → r ≠ 0xF#4 → readV t r = readV s r)

/-- R99: the byte drawn for the cycle masked by nn; the draw is the model's field `rand` (log entry 2), and
the statement holds for every value of it. -/
def Obligations.RandomByteIsMasked : Prop :=
  ∀ (x : Nibble) (nn : Byte) (s : State),
    decodeWord (0xC#4 ++ x ++ nn) = .ok (.rndVxNn x nn) ∧
    ∃ t, exec (.rndVxNn x nn) s = .next t ∧ t = { s with v := t.v } ∧
      (∀ k, (readV t x).getLsbD k = (s.rand.getLsbD k && nn.getLsbD k)) ∧
      ∀ r, r ≠ x → readV t r = readV s r

/-! ### Index register and memory -/

/-- R101. -/
def Obligations.LoadIndexSetsI : Prop :=
  ∀ (nnn : Addr12) (s : State),
    decodeWord (0xA#4 ++ nnn) = .ok (.ldINnn nnn) ∧
    ∃ t, exec (.ldINnn nnn) s = .next t ∧ t = { s with index := t.index } ∧
      t.index.toNat = nnn.toNat

/-- R102: the addend is the old Vx, `I` wraps at 16 bits, VF tells whether the sum passed 0xFFF. -/
def Obligations.AddToIndexSetsFlag : Prop :=
  ∀ (x : Nibble) (s : State),
    decodeWord (0xF#4 ++ x ++ 0x1E#8) = .ok (.addIVx x) ∧
    ∃ t, exec (.addIVx x) s = .next t ∧ t = { s with index := t.index, v := t.v } ∧
      t.index.toNat = (s.index.toNat + (readV s x).toNat) % 65536 ∧
      readV t 0xF#4 = (if s.index.toNat + (readV s x).toNat > 0xFFF then 1#8 else 0#8) ∧
      ∀ r, r ≠ 0xF#4 → readV t r = readV s r

/-- R103: `Fx29` emits one diagnostic event for its own word, or faults in strict mode. -/
def Obligations.FontInstructionIsUnrecognized : Prop :=
  ∀ (x : Nibble) (s : State),
    decodeWord (0xF#4 ++ x ++ 0x29#8) = .ok (.ldFVx x) ∧
    (s.strictDecode = false →
      exec (.ldFVx x) s =
        .next { s with diag := s.diag ++ [⟨s.pc - 2#16, 0xF#4 ++ x ++ 0x29#8⟩] }) ∧
    (s.strictDecode = true →
      exec (.ldFVx x) s =
        .next { s with
          status := ⟨.faulted, .unknownOpcode, s.pc - 2#16, 0xF#4 ++ x ++ 0x29#8⟩ })

/-- R104: three decimal digits at `I`, `I + 1`, `I + 2`, every other byte of memory unchanged; or the
bounds fault with no write. -/
def Obligations.DecimalDigitsAreStored : Prop :=
  ∀ (x : Nibble) (s : State), Memory.wf s.mem = true →
    decodeWord (0xF#4 ++ x ++ 0x33#8) = .ok (.ldBVx x) ∧
    (s.index.toNat ≤ 4093 →
      ∃ t, exec (.ldBVx x) s = .next t ∧ t = { s with mem := t.mem } ∧
        (memGet t.mem s.index.toNat).toNat = (readV s x).toNat / 100 ∧
        (memGet t.mem (s.index.toNat + 1)).toNat = (readV s x).toNat / 10 % 10 ∧
        (memGet t.mem (s.index.toNat + 2)).toNat = (readV s x).toNat % 10 ∧
        ∀ a, a < s.index.toNat ∨ s.index.toNat + 2 < a → memGet t.mem a = memGet s.mem a) ∧
    (4093 < s.index.toNat →
      exec (.ldBVx x) s = .next { s with
        status := ⟨.faulted, .outOfBounds, s.pc - 2#16,
          BitVec.ofNat 16 (max s.index.toNat 4096)⟩ })

/-- R105: V0 to Vx, `x` included, at ascending addresses from `I`, every other byte unchanged; or the
bounds fault with no write. -/
def Obligations.RegisterRangeIsStored : Prop :=
  ∀ (x : Nibble) (s : State), Memory.wf s.mem = true →
    decodeWord (0xF#4 ++ x ++ 0x55#8) = .ok (.ldMemVx x) ∧
    (s.index.toNat + x.toNat ≤ 4095 →
      ∃ t, exec (.ldMemVx x) s = .next t ∧ t = { s with mem := t.mem } ∧
        (∀ k : Nibble, k.toNat ≤ x.toNat →
          memGet t.mem (s.index.toNat + k.toNat) = readV s k) ∧
        ∀ a, a < s.index.toNat ∨ s.index.toNat + x.toNat < a → memGet t.mem a = memGet s.mem a) ∧
    (4095 < s.index.toNat + x.toNat →
      exec (.ldMemVx x) s = .next { s with
        status := ⟨.faulted, .outOfBounds, s.pc - 2#16,
          BitVec.ofNat 16 (max s.index.toNat 4096)⟩ })

/-- R106: V0 to Vx, `x` included, from ascending addresses from `I`, every other register unchanged; or
the bounds fault with no write. -/
def Obligations.RegisterRangeIsLoaded : Prop :=
  ∀ (x : Nibble) (s : State),
    decodeWord (0xF#4 ++ x ++ 0x65#8) = .ok (.ldVxMem x) ∧
    (s.index.toNat + x.toNat ≤ 4095 →
      ∃ t, exec (.ldVxMem x) s = .next t ∧ t = { s with v := t.v } ∧
        ∀ k : Nibble, readV t k =
          if k.toNat ≤ x.toNat then memGet s.mem (s.index.toNat + k.toNat) else readV s k) ∧
    (4095 < s.index.toNat + x.toNat →
      exec (.ldVxMem x) s = .next { s with
        status := ⟨.faulted, .outOfBounds, s.pc - 2#16,
          BitVec.ofNat 16 (max s.index.toNat 4096)⟩ })

/-- The round trip of R106: a load of the same range, in any state with the memory the store left and
the same `I`, gives V0 to Vx the values they had when stored. -/
def Obligations.StoreThenLoadRoundTrips : Prop :=
  ∀ (x : Nibble) (s : State), Memory.wf s.mem = true → s.index.toNat + x.toNat ≤ 4095 →
    ∃ t, exec (.ldMemVx x) s = .next t ∧
      ∀ u : State, u.mem = t.mem → u.index = s.index →
        ∃ w, exec (.ldVxMem x) u = .next w ∧
          ∀ k : Nibble, k.toNat ≤ x.toNat → readV w k = readV s k

/-- R43 and R52: bytes stored by `Fx55` are what the next fetch of their addresses sees, the byte of the
lower-numbered register being the high byte of the word. -/
def Obligations.StoredBytesAreFetchedBigEndian : Prop :=
  ∀ (x k k' : Nibble) (s : State), Memory.wf s.mem = true → s.index.toNat + x.toNat ≤ 4095 →
    k'.toNat = k.toNat + 1 → k'.toNat ≤ x.toNat →
    ∃ t, exec (.ldMemVx x) s = .next t ∧
      ∃ w : Word, fetch16 t.mem (s.index.toNat + k.toNat) = .ok w ∧
        w.toNat = (readV s k).toNat * 256 + (readV s k').toNat

/-! ### Keypad and timers -/

/-- R108 and R109: the two key skips are complementary, and both fault on a value above 15. -/
def Obligations.KeySkips : Prop :=
  ∀ (x : Nibble) (s : State),
    decodeWord (0xE#4 ++ x ++ 0x9E#8) = .ok (.skpVx x) ∧
    decodeWord (0xE#4 ++ x ++ 0xA1#8) = .ok (.sknpVx x) ∧
    (∀ h : (readV s x).toNat < 16,
      (s.keys[(readV s x).toNat] = true →
        exec (.skpVx x) s = .next { s with pc := s.pc + 2#16 } ∧ exec (.sknpVx x) s = .next s) ∧
      (s.keys[(readV s x).toNat] = false →
        exec (.skpVx x) s = .next s ∧ exec (.sknpVx x) s = .next { s with pc := s.pc + 2#16 })) ∧
    (15 < (readV s x).toNat →
      exec (.skpVx x) s = .next { s with
        status := ⟨.faulted, .keyOutOfRange, s.pc - 2#16, BitVec.ofNat 16 (readV s x).toNat⟩ } ∧
      exec (.sknpVx x) s = .next { s with
        status := ⟨.faulted, .keyOutOfRange, s.pc - 2#16, BitVec.ofNat 16 (readV s x).toNat⟩ })

/-- R110. -/
def Obligations.ReadDelayTimer : Prop :=
  ∀ (x : Nibble) (s : State),
    decodeWord (0xF#4 ++ x ++ 0x07#8) = .ok (.ldVxDt x) ∧
    ∃ t, exec (.ldVxDt x) s = .next t ∧ t = { s with v := t.v } ∧
      ∀ r, readV t r = if r = x then s.dt else readV s r

/-- R111: with no key down only `pc` is rewound by 2; else the index of a key that is down is stored,
one that depends on the snapshot alone (`KEY_SELECT`, R6). Which key when several are down is the free
choice `Config.keyChoice` (log entry 6), on which nothing here rests. -/
def Obligations.KeyWaitRewindsOrStoresDownKey : Prop :=
  ∃ select : Keypad → Fin 16, ∀ (x : Nibble) (s : State),
    decodeWord (0xF#4 ++ x ++ 0x0A#8) = .ok (.ldVxK x) ∧
    ((∀ k : Fin 16, s.keys[k] = false) →
      exec (.ldVxK x) s = .next { s with pc := s.pc - 2#16 }) ∧
    ((∃ k : Fin 16, s.keys[k] = true) →
      s.keys[select s.keys] = true ∧
      ∃ t, exec (.ldVxK x) s = .next t ∧ t = { s with v := t.v } ∧
        (readV t x).toNat = (select s.keys).val ∧ ∀ r, r ≠ x → readV t r = readV s r)

/-- R112 and R113. -/
def Obligations.SetTimers : Prop :=
  ∀ (x : Nibble) (s : State),
    decodeWord (0xF#4 ++ x ++ 0x15#8) = .ok (.ldDtVx x) ∧
    decodeWord (0xF#4 ++ x ++ 0x18#8) = .ok (.ldStVx x) ∧
    exec (.ldDtVx x) s = .next { s with dt := readV s x } ∧
    exec (.ldStVx x) s = .next { s with st := readV s x }

/-! ### Rules of the whole machine -/

/-- R20: how each instruction leaves `pc` where it raises no fault. -/
def Obligations.PcAfterEveryInstruction : Prop :=
  ∀ (i : Instr) (s t : State), exec i s = .next t → t.Running → t.pc = pcAfter i s

/-- R16: which registers an instruction may write: its destinations, and VF for a flag-setting one,
which leaves 0 or 1 there on every execution that does not fault. -/
def Obligations.WritersOfRegistersAndFlag : Prop :=
  ∀ (i : Instr) (s t : State), exec i s = .next t → t.Running →
    (∀ r, isDestination i r = false → (r = 0xF#4 → setsFlag i = false) → readV t r = readV s r) ∧
    (setsFlag i = true → readV t 0xF#4 = 0#8 ∨ readV t 0xF#4 = 1#8)

/-- R37 and R45: an instruction changes memory only at its `storeCount` bytes from `I` upward, and those
lie inside the address space if any byte is changed. -/
def Obligations.WritersOfMemory : Prop :=
  ∀ (i : Instr) (s t : State), Memory.wf s.mem = true → exec i s = .next t →
    ∀ a, memGet t.mem a ≠ memGet s.mem a →
      s.index.toNat ≤ a ∧ a < s.index.toNat + storeCount i ∧ a ≤ 4095

/-- R24, R25, R27 and R28: among the instructions, the index register, the stack, the two timers and the
framebuffer have no writers but those the spec names. (That the named ones write is in the statement of
each.) -/
def Obligations.WritersOfIndexStackTimersDisplay : Prop :=
  ∀ (i : Instr) (s t : State), exec i s = .next t →
    (t.index ≠ s.index → (∃ nnn, i = .ldINnn nnn) ∨ ∃ x, i = .addIVx x) ∧
    (t.stack ≠ s.stack → i = .ret ∨ ∃ nnn, i = .callNnn nnn) ∧
    (t.dt ≠ s.dt → ∃ x, i = .ldDtVx x) ∧ (t.st ≠ s.st → ∃ x, i = .ldStVx x) ∧
    (t.fb ≠ s.fb → i = .cls ∨ ∃ x y n, i = .drwVxVyN x y n)

/-- R29, R31, R32 and R34: no instruction writes the snapshot, the configuration or the host's inputs;
the status changes only by a fault, and the diagnostic stream only grows, by `Fx29` alone. -/
def Obligations.WritersOfHostSideState : Prop :=
  ∀ (i : Instr) (s t : State), exec i s = .next t →
    t.keys = s.keys ∧ t.rand = s.rand ∧ t.strictDecode = s.strictDecode ∧ t.inputs = s.inputs ∧
    t.inputsTaken = s.inputsTaken ∧ (t.status ≠ s.status → t.status.state = .faulted) ∧
    (t.diag ≠ s.diag → (∃ x, i = .ldFVx x) ∧ ∃ d, t.diag = s.diag ++ [d])

/-- R31, R34 and R121: no instruction reads the sound timer, the status record or the diagnostic stream:
the results of two runs that differ there alone differ there alone. -/
def Obligations.UnreadStateDoesNotInfluence : Prop :=
  ∀ (i : Instr) (s t t' : State) (st : Byte) (status : RunStatus) (diag : List Diagnostic),
    exec i s = .next t → exec i { s with st := st, status := status, diag := diag } = .next t' →
    t' = { t with st := t'.st, status := t'.status, diag := t'.diag }

/-- R29 and R130: only the two key skips and the key wait read the snapshot, and only `Cxnn` reads the
random byte. -/
def Obligations.SnapshotAndDrawReaders : Prop :=
  ∀ (i : Instr) (s t : State), exec i s = .next t →
    ((∀ x, i ≠ .skpVx x ∧ i ≠ .sknpVx x ∧ i ≠ .ldVxK x) → ∀ keys : Keypad,
      exec i { s with keys := keys } = .next { t with keys := keys }) ∧
    ((∀ x nn, i ≠ .rndVxNn x nn) → ∀ rand : Byte,
      exec i { s with rand := rand } = .next { t with rand := rand })

/-- The model's reset with any ROM that loads (R35, R48) meets the model's invariant; its clause on
canonical memory is the model's form of memory (log entry 9). -/
def Obligations.LoadMeetsInvariant : Prop :=
  ∀ (rom : List Byte) (s : State), State.load rom = .ok s → s.Inv
end

