-- ==== Sys2Proof/Laws/Memory.lean ====
section
/-! SUPPORT. Memory: a read after a write, the bounds checks, the multi-byte accesses, the ROM image,
and that every memory operation keeps the canonical form. -/

namespace Sys2Proof.Machine

/-! ### One byte -/

theorem memWfFrom_cons (lo k : Nat) (b : Byte) (rest : List Host.Cell) :
    memWfFrom lo ((k, b) :: rest) = true ↔
      lo ≤ k ∧ k < 4096 ∧ b ≠ 0#8 ∧ memWfFrom (k + 1) rest = true := by
  simp only [memWfFrom, Bool.and_eq_true, decide_eq_true_eq, bne_iff_ne, and_assoc]
  exact Iff.rfl

theorem memWfFrom_mono {lo lo' : Nat} (h : lo' ≤ lo) {m : List Host.Cell}
    (hm : memWfFrom lo m = true) : memWfFrom lo' m = true := by
  cases m with
  | nil => rfl
  | cons c rest =>
    rw [memWfFrom_cons] at hm ⊢
    exact ⟨h.trans hm.1, hm.2⟩

/-- Below the bound of its canonical form nothing is listed. -/
theorem memGet_below {lo a : Nat} {m : List Host.Cell} (hm : memWfFrom lo m = true) (h : a < lo) :
    memGet m a = 0#8 := by
  induction m generalizing lo with
  | nil => rfl
  | cons c rest ih =>
    rw [memWfFrom_cons] at hm
    have hne : c.1 ≠ a := by omega
    simpa [memGet, hne] using ih hm.2.2.2 (by omega)

/-- Above the address space nothing is listed. -/
theorem memGet_above {lo a : Nat} {m : List Host.Cell} (hm : memWfFrom lo m = true) (h : 4096 ≤ a) :
    memGet m a = 0#8 := by
  induction m generalizing lo with
  | nil => rfl
  | cons c rest ih =>
    rw [memWfFrom_cons] at hm
    have hne : c.1 ≠ a := by omega
    simpa [memGet, hne] using ih hm.2.2.2

theorem memGet_memSet_from {lo : Nat} {m : List Host.Cell} (hm : memWfFrom lo m = true)
    (a b : Nat) (v : Byte) : memGet (memSet m a v) b = if a = b then v else memGet m b := by
  induction m generalizing lo with
  | nil => by_cases hv : v = 0#8 <;> simp [memSet, memGet, hv]
  | cons c rest ih =>
    rw [memWfFrom_cons] at hm
    have hlow := fun x (hx : x < c.1 + 1) => memGet_below hm.2.2.2 hx
    simp only [memSet]
    by_cases hlt : a < c.1
    · by_cases hv : v = 0#8
      · by_cases hab : a = b
        · subst hab
          have hne : c.1 ≠ a := by omega
          simp [hlt, hv, memGet, hne, hlow a (by omega)]
        · simp [hlt, hv, hab]
      · simp [hlt, hv, memGet]
    · by_cases heq : a = c.1
      · subst heq
        by_cases hv : v = 0#8
        · by_cases hab : c.1 = b
          · simp [hv, hab, hlow b (by omega)]
          · simp [hv, hab, memGet]
        · by_cases hab : c.1 = b <;> simp [hv, hab, memGet]
      · have ih' := ih hm.2.2.2
        by_cases hcb : c.1 = b
        · subst hcb
          simp [hlt, heq, memGet]
        · simp [hlt, heq, memGet, hcb, ih']

/-- A read after a write: the byte written at its address, the old byte elsewhere. -/
theorem memGet_memSet {m : List Host.Cell} (hm : Memory.wf m = true) (a b : Nat) (v : Byte) :
    memGet (memSet m a v) b = if a = b then v else memGet m b :=
  memGet_memSet_from hm a b v

theorem memSet_wfFrom {lo a : Nat} {m : List Host.Cell} (hm : memWfFrom lo m = true)
    (hlo : lo ≤ a) (ha : a < 4096) (v : Byte) : memWfFrom lo (memSet m a v) = true := by
  induction m generalizing lo with
  | nil => by_cases hv : v = 0#8 <;> simp [memSet, memWfFrom, hv, hlo, ha, Config.memSize]
  | cons c rest ih =>
    have hm' := (memWfFrom_cons _ _ _ _).1 hm
    simp only [memSet]
    by_cases hlt : a < c.1
    · by_cases hv : v = 0#8
      · simpa [hlt, hv] using hm
      · simp only [hlt, hv, if_true, if_false, memWfFrom_cons]
        exact ⟨hlo, ha, hv, by omega, hm'.2.1, hm'.2.2.1, hm'.2.2.2⟩
    · by_cases heq : a = c.1
      · by_cases hv : v = 0#8
        · simpa [hlt, heq, hv] using memWfFrom_mono (by omega) hm'.2.2.2
        · simp only [heq, hv, if_true, if_false]
          simp only [lt_irrefl, if_false, memWfFrom_cons]
          exact ⟨hm'.1, hm'.2.1, hv, hm'.2.2.2⟩
      · simp only [hlt, heq, if_false, memWfFrom_cons]
        exact ⟨hm'.1, hm'.2.1, hm'.2.2.1, ih hm'.2.2.2 (by omega)⟩

/-- A write inside the address space keeps the canonical form. -/
theorem memSet_wf {m : List Host.Cell} (hm : Memory.wf m = true) {a : Nat} (ha : a < 4096)
    (v : Byte) : Memory.wf (memSet m a v) = true :=
  memSet_wfFrom hm (Nat.zero_le a) ha v

/-! ### Bounds checks -/

theorem checkAddr_eq (a : Nat) :
    checkAddr a = if a ≤ 4095 then .ok () else .error (outOfBoundsAt a) := by
  by_cases h : a ≤ 4095
  · simp [checkAddr, h]
  · simp [checkAddr, h, Nat.lt_of_not_le h]

/-- A span passes exactly when it is empty or ends at 4095 or below; else the first address out of
range is its base, or 4096. -/
theorem checkSpan_eq (base count : Nat) :
    checkSpan base count =
      if count = 0 ∨ base + count ≤ 4096 then .ok ()
      else .error (outOfBoundsAt (max base 4096)) := by
  induction count generalizing base with
  | zero => simp [checkSpan]
  | succ n ih =>
    simp only [checkSpan, checkAddr_eq]
    by_cases hb : base ≤ 4095
    · have hmax : max (base + 1) 4096 = max base 4096 := by omega
      have hcond : (n = 0 ∨ base + 1 + n ≤ 4096) ↔ (n + 1 = 0 ∨ base + (n + 1) ≤ 4096) := by omega
      simp only [hb, if_true, ih, hmax, hcond]
    · have hmax : max base 4096 = base := by omega
      have hcond : ¬(n + 1 = 0 ∨ base + (n + 1) ≤ 4096) := by omega
      simp only [hb, if_false, hcond, hmax]

theorem memRead_eq (m : List Host.Cell) (a : Nat) :
    memRead m a = if a ≤ 4095 then .ok (memGet m a) else .error (outOfBoundsAt a) := by
  by_cases h : a ≤ 4095 <;> simp [memRead, checkAddr_eq, h]

theorem memWrite_eq (m : List Host.Cell) (a : Nat) (b : Byte) :
    memWrite m a b = if a ≤ 4095 then .ok (memSet m a b) else .error (outOfBoundsAt a) := by
  by_cases h : a ≤ 4095 <;> simp [memWrite, checkAddr_eq, h]

/-- A fetch answers the big-endian word, or raises for the first of its two addresses out of range. -/
theorem fetch16_eq (m : List Host.Cell) (a : Nat) :
    fetch16 m a =
      if a ≤ 4094 then .ok (joinBytes (memGet m a) (memGet m (a + 1)))
      else .error (outOfBoundsAt (max a 4096)) := by
  by_cases h : a ≤ 4094
  · have h1 : a ≤ 4095 := by omega
    have h2 : a + 1 ≤ 4095 := by omega
    simp [fetch16, memRead_eq, h, h1, h2]
  · by_cases h1 : a ≤ 4095
    · have h2 : ¬ a + 1 ≤ 4095 := by omega
      have h3 : max a 4096 = a + 1 := by omega
      simp [fetch16, memRead_eq, h, h1, h2, h3]
    · have h3 : max a 4096 = a := by omega
      simp [fetch16, memRead_eq, h, h1, h3]

/-! ### Several bytes -/

theorem memReadBytes_eq (m : List Host.Cell) (base count : Nat) :
    memReadBytes m base count =
      if count = 0 ∨ base + count ≤ 4096 then
        .ok ((List.range count).map fun k => memGet m (base + k))
      else .error (outOfBoundsAt (max base 4096)) := by
  simp only [memReadBytes, checkSpan_eq]
  split_ifs <;> rfl

theorem memWriteBytes_eq (m : List Host.Cell) (base : Nat) (bytes : List Byte) :
    memWriteBytes m base bytes =
      if bytes.length = 0 ∨ base + bytes.length ≤ 4096 then .ok (memSetBytes m base bytes)
      else .error (outOfBoundsAt (max base 4096)) := by
  simp only [memWriteBytes, checkSpan_eq]
  split_ifs <;> rfl

theorem memSetBytes_wf {m : List Host.Cell} (hm : Memory.wf m = true) {base : Nat}
    {bytes : List Byte} (h : bytes.length = 0 ∨ base + bytes.length ≤ 4096) :
    Memory.wf (memSetBytes m base bytes) = true := by
  induction bytes generalizing m base with
  | nil => exact hm
  | cons b rest ih =>
    simp only [List.length_cons] at h
    exact ih (memSet_wf hm (by omega) b) (by omega)

/-- After a store of several bytes, an address inside holds its byte and every other address the byte
it held before. -/
theorem memGet_memSetBytes {m : List Host.Cell} (hm : Memory.wf m = true) {base : Nat}
    {bytes : List Byte} (h : bytes.length = 0 ∨ base + bytes.length ≤ 4096) (a : Nat) :
    memGet (memSetBytes m base bytes) a =
      if base ≤ a then bytes.getD (a - base) (memGet m a) else memGet m a := by
  induction bytes generalizing m base with
  | nil => simp [memSetBytes]
  | cons b rest ih =>
    simp only [List.length_cons] at h
    rw [memSetBytes, ih (memSet_wf hm (by omega) b) (by omega), memGet_memSet hm]
    by_cases h1 : base = a
    · have h2 : ¬ base + 1 ≤ a := by omega
      simp [h1]
    · by_cases h2 : base + 1 ≤ a
      · have h3 : base ≤ a := by omega
        have h4 : a - base = (a - (base + 1)) + 1 := by omega
        simp [h1, h2, h3, h4]
      · have h3 : ¬ base ≤ a := by omega
        simp [h1, h2, h3]

/-- A checked store of several bytes keeps the canonical form. -/
theorem memWriteBytes_wf {m m' : List Host.Cell} (hm : Memory.wf m = true) {base : Nat}
    {bytes : List Byte} (h : memWriteBytes m base bytes = .ok m') : Memory.wf m' = true := by
  rw [memWriteBytes_eq] at h
  split_ifs at h with hc
  cases h
  exact memSetBytes_wf hm hc

/-- A checked store of one byte keeps the canonical form. -/
theorem memWrite_wf {m m' : List Host.Cell} (hm : Memory.wf m = true) {a : Nat} {b : Byte}
    (h : memWrite m a b = .ok m') : Memory.wf m' = true := by
  rw [memWrite_eq] at h
  split_ifs at h with hc
  cases h
  exact memSet_wf hm (by omega) b

/-! ### The ROM image -/

theorem romCells_wfFrom (rom : List Byte) (base : Nat) (h : base + rom.length ≤ 4096) :
    memWfFrom base (romCells base rom) = true := by
  induction rom generalizing base with
  | nil => rfl
  | cons b rest ih =>
    simp only [List.length_cons] at h
    have ih' := ih (base + 1) (by omega)
    by_cases hb : b = 0#8
    · simpa [romCells, hb] using memWfFrom_mono (Nat.le_succ base) ih'
    · simp only [romCells, hb, if_false, memWfFrom_cons]
      exact ⟨le_refl base, by omega, hb, ih'⟩

theorem memGet_romCells (rom : List Byte) (base a : Nat) (h : base + rom.length ≤ 4096) :
    memGet (romCells base rom) a = if base ≤ a then rom.getD (a - base) 0#8 else 0#8 := by
  induction rom generalizing base with
  | nil => simp [romCells, memGet]
  | cons b rest ih =>
    simp only [List.length_cons] at h
    have ih' := ih (base + 1) (by omega)
    have hw := romCells_wfFrom rest (base + 1) (by omega)
    rcases Nat.lt_trichotomy a base with hlt | heq | hgt
    · have h1 : ¬ base ≤ a := by omega
      have h2 : ¬ base + 1 ≤ a := by omega
      have h3 : base ≠ a := by omega
      by_cases hb : b = 0#8 <;> simp [romCells, hb, memGet, ih', h1, h2, h3]
    · subst heq
      by_cases hb : b = 0#8 <;> simp [romCells, hb, memGet, ih']
    · have h1 : base ≤ a := by omega
      have h2 : base + 1 ≤ a := by omega
      have h3 : base ≠ a := by omega
      have h4 : a - base = (a - (base + 1)) + 1 := by omega
      by_cases hb : b = 0#8 <;> simp [romCells, hb, memGet, ih', h1, h2, h3, h4]

end Sys2Proof.Machine
end

