-- ==== Sys2Proof/Laws/State.lean ====
section
/-! SUPPORT. One lemma per field per named update of State, true by rfl, so that no later proof unfolds
a record update. -/

namespace Sys2Proof.Machine

/-! ### writeV -/

@[simp] theorem writeV_mem (s : State) (r : Nibble) (b : Byte) : (writeV s r b).mem = s.mem := rfl
@[simp] theorem writeV_v (s : State) (r : Nibble) (b : Byte) : (writeV s r b).v = s.v.set r.toNat b r.isLt := rfl
@[simp] theorem writeV_index (s : State) (r : Nibble) (b : Byte) : (writeV s r b).index = s.index := rfl
@[simp] theorem writeV_pc (s : State) (r : Nibble) (b : Byte) : (writeV s r b).pc = s.pc := rfl
@[simp] theorem writeV_stack (s : State) (r : Nibble) (b : Byte) : (writeV s r b).stack = s.stack := rfl
@[simp] theorem writeV_dt (s : State) (r : Nibble) (b : Byte) : (writeV s r b).dt = s.dt := rfl
@[simp] theorem writeV_st (s : State) (r : Nibble) (b : Byte) : (writeV s r b).st = s.st := rfl
@[simp] theorem writeV_fb (s : State) (r : Nibble) (b : Byte) : (writeV s r b).fb = s.fb := rfl
@[simp] theorem writeV_keys (s : State) (r : Nibble) (b : Byte) : (writeV s r b).keys = s.keys := rfl
@[simp] theorem writeV_rand (s : State) (r : Nibble) (b : Byte) : (writeV s r b).rand = s.rand := rfl
@[simp] theorem writeV_status (s : State) (r : Nibble) (b : Byte) : (writeV s r b).status = s.status := rfl
@[simp] theorem writeV_diag (s : State) (r : Nibble) (b : Byte) : (writeV s r b).diag = s.diag := rfl
@[simp] theorem writeV_strictDecode (s : State) (r : Nibble) (b : Byte) : (writeV s r b).strictDecode = s.strictDecode := rfl
@[simp] theorem writeV_inputs (s : State) (r : Nibble) (b : Byte) : (writeV s r b).inputs = s.inputs := rfl
@[simp] theorem writeV_inputsTaken (s : State) (r : Nibble) (b : Byte) : (writeV s r b).inputsTaken = s.inputsTaken := rfl

/-! ### setPc -/

@[simp] theorem setPc_mem (s : State) (t : Word) : (setPc s t).mem = s.mem := rfl
@[simp] theorem setPc_v (s : State) (t : Word) : (setPc s t).v = s.v := rfl
@[simp] theorem setPc_index (s : State) (t : Word) : (setPc s t).index = s.index := rfl
@[simp] theorem setPc_pc (s : State) (t : Word) : (setPc s t).pc = t := rfl
@[simp] theorem setPc_stack (s : State) (t : Word) : (setPc s t).stack = s.stack := rfl
@[simp] theorem setPc_dt (s : State) (t : Word) : (setPc s t).dt = s.dt := rfl
@[simp] theorem setPc_st (s : State) (t : Word) : (setPc s t).st = s.st := rfl
@[simp] theorem setPc_fb (s : State) (t : Word) : (setPc s t).fb = s.fb := rfl
@[simp] theorem setPc_keys (s : State) (t : Word) : (setPc s t).keys = s.keys := rfl
@[simp] theorem setPc_rand (s : State) (t : Word) : (setPc s t).rand = s.rand := rfl
@[simp] theorem setPc_status (s : State) (t : Word) : (setPc s t).status = s.status := rfl
@[simp] theorem setPc_diag (s : State) (t : Word) : (setPc s t).diag = s.diag := rfl
@[simp] theorem setPc_strictDecode (s : State) (t : Word) : (setPc s t).strictDecode = s.strictDecode := rfl
@[simp] theorem setPc_inputs (s : State) (t : Word) : (setPc s t).inputs = s.inputs := rfl
@[simp] theorem setPc_inputsTaken (s : State) (t : Word) : (setPc s t).inputsTaken = s.inputsTaken := rfl

/-! ### setIndex -/

@[simp] theorem setIndex_mem (s : State) (w : Word) : (setIndex s w).mem = s.mem := rfl
@[simp] theorem setIndex_v (s : State) (w : Word) : (setIndex s w).v = s.v := rfl
@[simp] theorem setIndex_index (s : State) (w : Word) : (setIndex s w).index = w := rfl
@[simp] theorem setIndex_pc (s : State) (w : Word) : (setIndex s w).pc = s.pc := rfl
@[simp] theorem setIndex_stack (s : State) (w : Word) : (setIndex s w).stack = s.stack := rfl
@[simp] theorem setIndex_dt (s : State) (w : Word) : (setIndex s w).dt = s.dt := rfl
@[simp] theorem setIndex_st (s : State) (w : Word) : (setIndex s w).st = s.st := rfl
@[simp] theorem setIndex_fb (s : State) (w : Word) : (setIndex s w).fb = s.fb := rfl
@[simp] theorem setIndex_keys (s : State) (w : Word) : (setIndex s w).keys = s.keys := rfl
@[simp] theorem setIndex_rand (s : State) (w : Word) : (setIndex s w).rand = s.rand := rfl
@[simp] theorem setIndex_status (s : State) (w : Word) : (setIndex s w).status = s.status := rfl
@[simp] theorem setIndex_diag (s : State) (w : Word) : (setIndex s w).diag = s.diag := rfl
@[simp] theorem setIndex_strictDecode (s : State) (w : Word) : (setIndex s w).strictDecode = s.strictDecode := rfl
@[simp] theorem setIndex_inputs (s : State) (w : Word) : (setIndex s w).inputs = s.inputs := rfl
@[simp] theorem setIndex_inputsTaken (s : State) (w : Word) : (setIndex s w).inputsTaken = s.inputsTaken := rfl

/-! ### advancePc -/

@[simp] theorem advancePc_mem (s : State) : (advancePc s).mem = s.mem := rfl
@[simp] theorem advancePc_v (s : State) : (advancePc s).v = s.v := rfl
@[simp] theorem advancePc_index (s : State) : (advancePc s).index = s.index := rfl
@[simp] theorem advancePc_pc (s : State) : (advancePc s).pc = s.pc + 2#16 := rfl
@[simp] theorem advancePc_stack (s : State) : (advancePc s).stack = s.stack := rfl
@[simp] theorem advancePc_dt (s : State) : (advancePc s).dt = s.dt := rfl
@[simp] theorem advancePc_st (s : State) : (advancePc s).st = s.st := rfl
@[simp] theorem advancePc_fb (s : State) : (advancePc s).fb = s.fb := rfl
@[simp] theorem advancePc_keys (s : State) : (advancePc s).keys = s.keys := rfl
@[simp] theorem advancePc_rand (s : State) : (advancePc s).rand = s.rand := rfl
@[simp] theorem advancePc_status (s : State) : (advancePc s).status = s.status := rfl
@[simp] theorem advancePc_diag (s : State) : (advancePc s).diag = s.diag := rfl
@[simp] theorem advancePc_strictDecode (s : State) : (advancePc s).strictDecode = s.strictDecode := rfl
@[simp] theorem advancePc_inputs (s : State) : (advancePc s).inputs = s.inputs := rfl
@[simp] theorem advancePc_inputsTaken (s : State) : (advancePc s).inputsTaken = s.inputsTaken := rfl

/-! ### rewindPc -/

@[simp] theorem rewindPc_mem (s : State) : (rewindPc s).mem = s.mem := rfl
@[simp] theorem rewindPc_v (s : State) : (rewindPc s).v = s.v := rfl
@[simp] theorem rewindPc_index (s : State) : (rewindPc s).index = s.index := rfl
@[simp] theorem rewindPc_pc (s : State) : (rewindPc s).pc = s.pc - 2#16 := rfl
@[simp] theorem rewindPc_stack (s : State) : (rewindPc s).stack = s.stack := rfl
@[simp] theorem rewindPc_dt (s : State) : (rewindPc s).dt = s.dt := rfl
@[simp] theorem rewindPc_st (s : State) : (rewindPc s).st = s.st := rfl
@[simp] theorem rewindPc_fb (s : State) : (rewindPc s).fb = s.fb := rfl
@[simp] theorem rewindPc_keys (s : State) : (rewindPc s).keys = s.keys := rfl
@[simp] theorem rewindPc_rand (s : State) : (rewindPc s).rand = s.rand := rfl
@[simp] theorem rewindPc_status (s : State) : (rewindPc s).status = s.status := rfl
@[simp] theorem rewindPc_diag (s : State) : (rewindPc s).diag = s.diag := rfl
@[simp] theorem rewindPc_strictDecode (s : State) : (rewindPc s).strictDecode = s.strictDecode := rfl
@[simp] theorem rewindPc_inputs (s : State) : (rewindPc s).inputs = s.inputs := rfl
@[simp] theorem rewindPc_inputsTaken (s : State) : (rewindPc s).inputsTaken = s.inputsTaken := rfl

/-! ### writeFlag -/

@[simp] theorem writeFlag_mem (s : State) (c : Bool) : (writeFlag s c).mem = s.mem := rfl
@[simp] theorem writeFlag_v (s : State) (c : Bool) : (writeFlag s c).v = s.v.set 15 (flagByte c) (by decide) := rfl
@[simp] theorem writeFlag_index (s : State) (c : Bool) : (writeFlag s c).index = s.index := rfl
@[simp] theorem writeFlag_pc (s : State) (c : Bool) : (writeFlag s c).pc = s.pc := rfl
@[simp] theorem writeFlag_stack (s : State) (c : Bool) : (writeFlag s c).stack = s.stack := rfl
@[simp] theorem writeFlag_dt (s : State) (c : Bool) : (writeFlag s c).dt = s.dt := rfl
@[simp] theorem writeFlag_st (s : State) (c : Bool) : (writeFlag s c).st = s.st := rfl
@[simp] theorem writeFlag_fb (s : State) (c : Bool) : (writeFlag s c).fb = s.fb := rfl
@[simp] theorem writeFlag_keys (s : State) (c : Bool) : (writeFlag s c).keys = s.keys := rfl
@[simp] theorem writeFlag_rand (s : State) (c : Bool) : (writeFlag s c).rand = s.rand := rfl
@[simp] theorem writeFlag_status (s : State) (c : Bool) : (writeFlag s c).status = s.status := rfl
@[simp] theorem writeFlag_diag (s : State) (c : Bool) : (writeFlag s c).diag = s.diag := rfl
@[simp] theorem writeFlag_strictDecode (s : State) (c : Bool) : (writeFlag s c).strictDecode = s.strictDecode := rfl
@[simp] theorem writeFlag_inputs (s : State) (c : Bool) : (writeFlag s c).inputs = s.inputs := rfl
@[simp] theorem writeFlag_inputsTaken (s : State) (c : Bool) : (writeFlag s c).inputsTaken = s.inputsTaken := rfl

/-! ### enterFault -/

@[simp] theorem enterFault_mem (a : Word) (f : FaultRaise) (s : State) : (enterFault a f s).mem = s.mem := rfl
@[simp] theorem enterFault_v (a : Word) (f : FaultRaise) (s : State) : (enterFault a f s).v = s.v := rfl
@[simp] theorem enterFault_index (a : Word) (f : FaultRaise) (s : State) : (enterFault a f s).index = s.index := rfl
@[simp] theorem enterFault_pc (a : Word) (f : FaultRaise) (s : State) : (enterFault a f s).pc = s.pc := rfl
@[simp] theorem enterFault_stack (a : Word) (f : FaultRaise) (s : State) : (enterFault a f s).stack = s.stack := rfl
@[simp] theorem enterFault_dt (a : Word) (f : FaultRaise) (s : State) : (enterFault a f s).dt = s.dt := rfl
@[simp] theorem enterFault_st (a : Word) (f : FaultRaise) (s : State) : (enterFault a f s).st = s.st := rfl
@[simp] theorem enterFault_fb (a : Word) (f : FaultRaise) (s : State) : (enterFault a f s).fb = s.fb := rfl
@[simp] theorem enterFault_keys (a : Word) (f : FaultRaise) (s : State) : (enterFault a f s).keys = s.keys := rfl
@[simp] theorem enterFault_rand (a : Word) (f : FaultRaise) (s : State) : (enterFault a f s).rand = s.rand := rfl
@[simp] theorem enterFault_status (a : Word) (f : FaultRaise) (s : State) : (enterFault a f s).status = ⟨.faulted, f.cause, a, f.info⟩ := rfl
@[simp] theorem enterFault_diag (a : Word) (f : FaultRaise) (s : State) : (enterFault a f s).diag = s.diag := rfl
@[simp] theorem enterFault_strictDecode (a : Word) (f : FaultRaise) (s : State) : (enterFault a f s).strictDecode = s.strictDecode := rfl
@[simp] theorem enterFault_inputs (a : Word) (f : FaultRaise) (s : State) : (enterFault a f s).inputs = s.inputs := rfl
@[simp] theorem enterFault_inputsTaken (a : Word) (f : FaultRaise) (s : State) : (enterFault a f s).inputsTaken = s.inputsTaken := rfl

/-! ### refresh -/

@[simp] theorem refresh_mem (h : HostInput) (s : State) : (refresh h s).mem = s.mem := rfl
@[simp] theorem refresh_v (h : HostInput) (s : State) : (refresh h s).v = s.v := rfl
@[simp] theorem refresh_index (h : HostInput) (s : State) : (refresh h s).index = s.index := rfl
@[simp] theorem refresh_pc (h : HostInput) (s : State) : (refresh h s).pc = s.pc := rfl
@[simp] theorem refresh_stack (h : HostInput) (s : State) : (refresh h s).stack = s.stack := rfl
@[simp] theorem refresh_dt (h : HostInput) (s : State) : (refresh h s).dt = s.dt := rfl
@[simp] theorem refresh_st (h : HostInput) (s : State) : (refresh h s).st = s.st := rfl
@[simp] theorem refresh_fb (h : HostInput) (s : State) : (refresh h s).fb = s.fb := rfl
@[simp] theorem refresh_keys (h : HostInput) (s : State) : (refresh h s).keys = h.keys := rfl
@[simp] theorem refresh_rand (h : HostInput) (s : State) : (refresh h s).rand = h.rand := rfl
@[simp] theorem refresh_status (h : HostInput) (s : State) : (refresh h s).status = s.status := rfl
@[simp] theorem refresh_diag (h : HostInput) (s : State) : (refresh h s).diag = s.diag := rfl
@[simp] theorem refresh_strictDecode (h : HostInput) (s : State) : (refresh h s).strictDecode = s.strictDecode := rfl
@[simp] theorem refresh_inputs (h : HostInput) (s : State) : (refresh h s).inputs = s.inputs := rfl
@[simp] theorem refresh_inputsTaken (h : HostInput) (s : State) : (refresh h s).inputsTaken = s.inputsTaken := rfl

end Sys2Proof.Machine
end

