-- ==== Sys2Proof/Laws/Registers.lean ====
section
/-! SUPPORT. Registers: a read after a write, the flag written last, and the write of a range. -/

namespace Sys2Proof.Machine

/-- A read after a write of a register. -/
theorem readV_writeV (s : State) (r x : Nibble) (b : Byte) :
    readV (writeV s x b) r = if r = x then b else readV s r := by
  unfold readV writeV
  rw [Vector.getElem_set]
  by_cases h : x.toNat = r.toNat
  · have h' : r = x := (BitVec.eq_of_toNat_eq h).symm
    simp [h, h']
  · have h' : r ≠ x := fun e => h (by rw [e])
    simp [h, h']

@[simp] theorem readV_setPc (s : State) (t : Word) (r : Nibble) : readV (setPc s t) r = readV s r := rfl
@[simp] theorem readV_setIndex (s : State) (w : Word) (r : Nibble) :
    readV (setIndex s w) r = readV s r := rfl
@[simp] theorem readV_advancePc (s : State) (r : Nibble) : readV (advancePc s) r = readV s r := rfl
@[simp] theorem readV_rewindPc (s : State) (r : Nibble) : readV (rewindPc s) r = readV s r := rfl
@[simp] theorem readV_enterFault (a : Word) (f : FaultRaise) (s : State) (r : Nibble) :
    readV (enterFault a f s) r = readV s r := rfl

theorem readV_writeFlag (s : State) (r : Nibble) (c : Bool) :
    readV (writeFlag s c) r = if r = vfIndex then flagByte c else readV s r :=
  readV_writeV s r vfIndex (flagByte c)

/-- The flag wins over the result when the destination is VF (R17). -/
theorem readV_writeWithFlag (s : State) (x r : Nibble) (b : Byte) (c : Bool) :
    readV (writeWithFlag s x b c) r =
      if r = vfIndex then flagByte c else if r = x then b else readV s r := by
  rw [writeWithFlag, readV_writeFlag, readV_writeV]

/-- A state differs from another in its general registers only. -/
def OnlyRegisters (s t : State) : Prop := t = { s with v := t.v }

theorem OnlyRegisters.refl (s : State) : OnlyRegisters s s := rfl

theorem writeV_only (s : State) (x : Nibble) (b : Byte) : OnlyRegisters s (writeV s x b) := rfl

theorem writeVFrom_only (s : State) (r : Nat) (bytes : List Byte) :
    OnlyRegisters s (writeVFrom s r bytes) := by
  induction bytes generalizing s r with
  | nil => rfl
  | cons b rest ih => exact ih (writeV s (BitVec.ofNat 4 r) b) (r + 1)

/-- Registers `r` to `r + length - 1` get the bytes, the others keep theirs. -/
theorem readV_writeVFrom (s : State) (r : Nat) (bytes : List Byte) (h : r + bytes.length ≤ 16)
    (k : Nibble) :
    readV (writeVFrom s r bytes) k =
      if r ≤ k.toNat then bytes.getD (k.toNat - r) (readV s k) else readV s k := by
  induction bytes generalizing s r with
  | nil => simp [writeVFrom]
  | cons b rest ih =>
    simp only [List.length_cons] at h
    rw [writeVFrom, ih _ _ (by omega), readV_writeV]
    have hk : k = BitVec.ofNat 4 r ↔ k.toNat = r := by
      rw [← BitVec.toNat_inj, BitVec.toNat_ofNat, Nat.mod_eq_of_lt (by omega)]
    rcases Nat.lt_trichotomy r k.toNat with hlt | heq | hgt
    · have h1 : r + 1 ≤ k.toNat := by omega
      have h2 : r ≤ k.toNat := by omega
      have h3 : ¬ k.toNat = r := by omega
      have h4 : k.toNat - r = (k.toNat - (r + 1)) + 1 := by omega
      simp [hk, h1, h2, h3, h4]
    · have h1 : ¬ r + 1 ≤ k.toNat := by omega
      simp [hk, ← heq]
    · have h1 : ¬ r + 1 ≤ k.toNat := by omega
      have h2 : ¬ r ≤ k.toNat := by omega
      have h3 : ¬ k.toNat = r := by omega
      simp [hk, h1, h2, h3]

end Sys2Proof.Machine
end

