-- ==== Sys2Proof/Laws/Operations.lean ====
section
/-! SUPPORT. For each shared operation that can raise a fault or choose, one lemma that says everything
it can do; the small lemmas of the flags, the framebuffer, the key operands and the timers. -/

namespace Sys2Proof.Machine

/-! ### Faults and the return-address stack -/

@[simp] theorem settle_ok (s t : State) : settle s (.ok t) = t := rfl

@[simp] theorem settle_error (s : State) (f : FaultRaise) :
    settle s (.error f) = enterFault (s.pc - 2#16) f s := rfl

@[simp] theorem settle_map_ok {α : Type} (s : State) (g : α → State) (a : α) :
    settle s ((Except.ok a).map g) = g a := rfl

@[simp] theorem settle_map_error {α : Type} (s : State) (g : α → State) (f : FaultRaise) :
    settle s ((Except.error f).map g) = enterFault (s.pc - 2#16) f s := rfl

/-- An execution that can fault leaves its result or the entry of the fault it raised. -/
theorem settle_cases (s : State) (r : Except FaultRaise State) :
    (∃ t, r = .ok t ∧ settle s r = t) ∨
    ∃ f, r = .error f ∧ settle s r = enterFault (s.pc - 2#16) f s := by
  cases r with
  | ok t => exact .inl ⟨t, rfl, rfl⟩
  | error f => exact .inr ⟨f, rfl, rfl⟩

/-- A skip changes nothing but `pc`. -/
theorem skipIf_eq (c : Bool) (s : State) :
    skipIf c s = { s with pc := if c then s.pc + 2#16 else s.pc } := by
  unfold skipIf
  split <;> rfl

/-- After the advance the address of the executing instruction is where the cycle began. -/
@[simp] theorem instrAddr_advancePc (s : State) : instrAddr (advancePc s) = s.pc := by
  simp [instrAddr]

theorem pushPc_eq (s : State) :
    pushPc s =
      if s.stack.length < 16 then .ok { s with stack := s.stack ++ [s.pc] }
      else .error ⟨.stackOverflow, 0#16⟩ := by
  by_cases h : s.stack.length < 16
  · have h' : ¬ s.stack.length ≥ Config.stackDepth := by simpa [Config.stackDepth] using h
    simp [pushPc, h, h']
  · have h' : s.stack.length ≥ Config.stackDepth := by simpa [Config.stackDepth] using h
    simp [pushPc, h, h']

theorem popPc_nil {s : State} (h : s.stack = []) : popPc s = .error ⟨.stackUnderflow, 0#16⟩ := by
  simp [popPc, h]

theorem popPc_concat {s : State} {below : List Word} {top : Word} (h : s.stack = below ++ [top]) :
    popPc s = .ok { s with pc := top, stack := below } := by
  simp [popPc, h]

/-- Popping answers an underflow on an empty stack, else removes the top entry into `pc`. -/
theorem popPc_cases (s : State) :
    (s.stack = [] ∧ popPc s = .error ⟨.stackUnderflow, 0#16⟩) ∨
    ∃ below top, s.stack = below ++ [top] ∧
      popPc s = .ok { s with pc := top, stack := below } := by
  rcases List.eq_nil_or_concat s.stack with h | ⟨below, top, h⟩
  · exact .inl ⟨h, popPc_nil h⟩
  · exact .inr ⟨below, top, by simpa using h, popPc_concat (by simpa using h)⟩

theorem unrecognizedAction_strict {s : State} (h : s.strictDecode = true) (w : Word) :
    unrecognizedAction w s = .error ⟨.unknownOpcode, w⟩ := by
  simp [unrecognizedAction, h]

theorem unrecognizedAction_lenient {s : State} (h : s.strictDecode = false) (w : Word) :
    unrecognizedAction w s = .ok { s with diag := s.diag ++ [⟨s.pc - 2#16, w⟩] } := by
  simp [unrecognizedAction, h, instrAddr]

/-! ### Flags -/

@[simp] theorem flagByte_true : flagByte true = 1#8 := rfl
@[simp] theorem flagByte_false : flagByte false = 0#8 := rfl

theorem sumByte_toNat (a b : Byte) : (sumByte a b).toNat = (a.toNat + b.toNat) % 256 := by
  simp [sumByte]

theorem indexSum_toNat (i : Word) (b : Byte) :
    (indexSum i b).toNat = (i.toNat + b.toNat) % 65536 := by
  simp [indexSum]

theorem shiftRightByte_toNat (a : Byte) : (shiftRightByte a).toNat = a.toNat / 2 := by
  have := a.isLt
  simp only [shiftRightByte, BitVec.toNat_ofNat]
  omega

theorem shiftLeftByte_toNat (a : Byte) : (shiftLeftByte a).toNat = a.toNat * 2 % 256 := by
  simp [shiftLeftByte]

theorem differenceByte_toInt (a b : Byte) :
    ((differenceByte a b).toNat : Int) = ((a.toNat : Int) - b.toNat) % 256 := by
  simp only [differenceByte, BitVec.toNat_ofInt]
  omega

/-! ### Framebuffer -/

/-- A read of the framebuffer after a write of one pixel. -/
theorem pixelAt_setPixel (g : PixelGrid) (px py qx qy : Nat) (b : Bool) :
    pixelAt (setPixel g px py b) qx qy =
      if px % 64 = qx % 64 ∧ py % 32 = qy % 32 then b else pixelAt g qx qy := by
  unfold pixelAt setPixel
  rw [Vector.getElem_set]
  by_cases hy : py % 32 = qy % 32
  · by_cases hx : px % 64 = qx % 64
    · simp [hx, hy]
    · simp [hx, hy]
  · simp [hy]

@[simp] theorem pixelAt_blankGrid (px py : Nat) : pixelAt blankGrid px py = false := by
  simp [pixelAt, blankGrid]

/-! ### Stored bytes -/

@[simp] theorem decimalDigits_length (b : Byte) : (decimalDigits b).length = 3 := rfl

@[simp] theorem rangeBytes_length (s : State) (x : Nibble) :
    (rangeBytes s x).length = x.toNat + 1 := by
  simp [rangeBytes, rangeCount]

/-- The byte of register `k` in the bytes of V0 to Vx. -/
theorem rangeBytes_getD (s : State) {x k : Nibble} (h : k.toNat ≤ x.toNat) (d : Byte) :
    (rangeBytes s x).getD k.toNat d = readV s k := by
  simp [rangeBytes, rangeCount, Nat.lt_succ_of_le h]

/-! ### Keys -/

theorem keyOperand_eq (k : Byte) :
    keyOperand k =
      if k.toNat < 16 then .ok (k.setWidth 4) else .error ⟨.keyOutOfRange, zextByte k⟩ := by
  by_cases h : k.toNat < 16
  · have h' : ¬ k.toNat > 15 := by omega
    simp [keyOperand, h, h']
  · have h' : k.toNat > 15 := by omega
    simp [keyOperand, h, h']

theorem mem_downKeys (K : Keypad) (k : Nibble) : k ∈ downKeys K ↔ keyDown K k = true := by
  have hk := k.isLt
  simp only [downKeys, List.mem_filter, List.mem_map, List.mem_range, and_iff_right_iff_imp]
  exact fun _ => ⟨k.toNat, by omega, by simp⟩

/-- `KEY_SELECT` answers none exactly when no key is down. -/
theorem keySelect_none (K : Keypad) : keySelect K = none ↔ ∀ k, keyDown K k = false := by
  constructor
  · intro h k
    have hn : downKeys K = [] := by
      unfold keySelect at h
      split at h <;> simp_all
    by_contra hk
    have := (mem_downKeys K k).2 (by simpa using hk)
    simp [hn] at this
  · intro h
    have hn : downKeys K = [] := by
      rw [List.eq_nil_iff_forall_not_mem]
      intro k hk
      have := (mem_downKeys K k).1 hk
      simp [h k] at this
    simp [keySelect, hn]

/-- A key that `KEY_SELECT` answers is down, whatever the free choice is. -/
theorem keySelect_down {K : Keypad} {k : Nibble} (h : keySelect K = some k) :
    keyDown K k = true := by
  rw [← mem_downKeys]
  unfold keySelect at h
  split at h
  · cases h
  · rename_i a heq
    cases h
    simp [heq]
  · rename_i a b rest heq
    cases h
    rw [heq, List.getD_eq_getElem?_getD]
    cases hg : (a :: b :: rest)[Config.keyChoice K]? with
    | none => simp
    | some c => simpa using List.mem_of_getElem? hg

/-! ### The host's turn -/

theorem countDownBy_zero (b : Byte) : countDownBy 0 b = b := by
  by_cases h : b = 0#8 <;> simp [countDownBy, h]

/-- `ticks n` is `tick` done `n` times. -/
theorem ticks_eq_iterate (n : Nat) (s : State) : ticks n s = tick^[n] s := by
  induction n generalizing s with
  | zero =>
    unfold ticks
    split
    · simp [countDownBy_zero]
    · rfl
  | succ n ih =>
    rw [Function.iterate_succ_apply, ← ih]
    have hb : ∀ b : Byte, countDownBy (n + 1) b = countDownBy n (countDown b) := by
      intro b
      by_cases h0 : b = 0#8
      · simp [countDownBy, countDown, h0]
      · have hpos : b.toNat ≠ 0 := fun e => h0 (BitVec.eq_of_toNat_eq (by simpa using e))
        have hlt := b.isLt
        have hs : (b - 1#8).toNat = b.toNat - 1 := by
          rw [BitVec.toNat_sub]
          simp
          omega
        by_cases h1 : b = 1#8
        · simp [countDownBy, countDown, h1]
        · have h2 : b - 1#8 ≠ 0#8 := by
            intro e
            apply h1
            have := congrArg (· + 1#8) e
            simpa using this
          simp [countDownBy, countDown, h0, h2, hs, Nat.sub_sub, Nat.add_comm]
    cases hs : s.status.state <;> simp [ticks, tick, hs, hb]

@[simp] theorem hostTurn_mem (s : State) : (hostTurn s).mem = s.mem := by
  unfold hostTurn refresh ticks dropInput
  split <;> split <;> rfl

@[simp] theorem hostTurn_v (s : State) : (hostTurn s).v = s.v := by
  unfold hostTurn refresh ticks dropInput
  split <;> split <;> rfl

@[simp] theorem hostTurn_index (s : State) : (hostTurn s).index = s.index := by
  unfold hostTurn refresh ticks dropInput
  split <;> split <;> rfl

@[simp] theorem hostTurn_pc (s : State) : (hostTurn s).pc = s.pc := by
  unfold hostTurn refresh ticks dropInput
  split <;> split <;> rfl

@[simp] theorem hostTurn_stack (s : State) : (hostTurn s).stack = s.stack := by
  unfold hostTurn refresh ticks dropInput
  split <;> split <;> rfl

@[simp] theorem hostTurn_fb (s : State) : (hostTurn s).fb = s.fb := by
  unfold hostTurn refresh ticks dropInput
  split <;> split <;> rfl

@[simp] theorem hostTurn_status (s : State) : (hostTurn s).status = s.status := by
  unfold hostTurn refresh ticks dropInput
  split <;> split <;> rfl

@[simp] theorem hostTurn_diag (s : State) : (hostTurn s).diag = s.diag := by
  unfold hostTurn refresh ticks dropInput
  split <;> split <;> rfl

@[simp] theorem hostTurn_strictDecode (s : State) : (hostTurn s).strictDecode = s.strictDecode := by
  unfold hostTurn refresh ticks dropInput
  split <;> split <;> rfl

@[simp] theorem hostTurn_keys (s : State) : (hostTurn s).keys = (nextInput s).keys := rfl

@[simp] theorem hostTurn_rand (s : State) : (hostTurn s).rand = (nextInput s).rand := rfl

theorem dropInput_status (s : State) : (dropInput s).status = s.status := by
  unfold dropInput
  split <;> rfl

theorem dropInput_dt (s : State) : (dropInput s).dt = s.dt := by
  unfold dropInput
  split <;> rfl

theorem dropInput_st (s : State) : (dropInput s).st = s.st := by
  unfold dropInput
  split <;> rfl

/-- The turn of a running core's host counts both timers down by the ticks of its input. -/
theorem hostTurn_timers {s : State} (h : s.status.state = .running) :
    (hostTurn s).dt = countDownBy (nextInput s).ticks s.dt ∧
      (hostTurn s).st = countDownBy (nextInput s).ticks s.st := by
  have h' : (dropInput s).status.state = .running := by rw [dropInput_status, h]
  simp [hostTurn, refresh, ticks, h', dropInput_dt, dropInput_st]

@[simp] theorem readV_hostTurn (s : State) (r : Nibble) : readV (hostTurn s) r = readV s r := by
  simp [readV]

end Sys2Proof.Machine
end

