-- ==== Sys2Proof/Laws/Display.lean ====
section
/-! SUPPORT. What drawing a sprite does, said once: which pixels it inverts, and when it records a
collision (spec/41_display.md R77). -/

namespace Sys2Proof.Machine

/-- A set bit among the columns `js` of a sprite row lands on the pixel (qx, qy). -/
def ColumnHits (px0 py : Nat) (row : Byte) (js : List Nat) (qx qy : Nat) : Prop :=
  ∃ j ∈ js, row.getLsbD (7 - j) = true ∧ (px0 + j) % 64 = qx % 64 ∧ py % 32 = qy % 32

open Classical in
/-- Drawing different columns of one row inverts the pixels they hit, and no others, and records
whether one of them was on. -/
theorem drawColumns_spec (px0 py : Nat) (row : Byte) (js : List Nat) (hj : ∀ j ∈ js, j < 8)
    (hn : js.Nodup) (acc : PixelGrid × Bool) :
    (∀ qx qy, pixelAt (drawColumns px0 py row js acc).1 qx qy =
      (pixelAt acc.1 qx qy ^^ decide (ColumnHits px0 py row js qx qy))) ∧
    ((drawColumns px0 py row js acc).2 = true ↔
      acc.2 = true ∨ ∃ qx qy, ColumnHits px0 py row js qx qy ∧ pixelAt acc.1 qx qy = true) := by
  induction js generalizing acc with
  | nil => simp [drawColumns, ColumnHits]
  | cons j js ih =>
    simp only [List.nodup_cons] at hn
    have hj' : ∀ j ∈ js, j < 8 := fun k hk => hj k (by simp [hk])
    have hj0 := hj j (by simp)
    obtain ⟨i1, i2⟩ := ih hj' hn.2
      (if row.getLsbD (7 - j) then togglePixel acc (px0 + j) py else acc)
    simp only [drawColumns]
    have hpx : ∀ g qx qy, (px0+j)%64 = qx%64 → py%32 = qy%32 →
        pixelAt g (px0+j) py = pixelAt g qx qy := by
      intro g qx qy h1 h2; simp [pixelAt, h1, h2]
    have hdis : ∀ qx qy, (px0+j)%64 = qx%64 → ¬ ColumnHits px0 py row js qx qy := by
      rintro qx qy h ⟨k, hk, -, h2, -⟩
      have := hj' k hk
      have : k = j := by omega
      subst this; exact hn.1 hk
    have hcons : ∀ qx qy, ColumnHits px0 py row (j::js) qx qy ↔
        (row.getLsbD (7-j) = true ∧ (px0+j)%64 = qx%64 ∧ py%32 = qy%32) ∨
          ColumnHits px0 py row js qx qy := by
      intro qx qy; simp [ColumnHits]
    by_cases hb : row.getLsbD (7 - j) = true
    · simp only [hb, if_true] at i1 i2 ⊢
      have hpt : ∀ qx qy, pixelAt (togglePixel acc (px0+j) py).1 qx qy =
          if (px0+j)%64 = qx%64 ∧ py%32 = qy%32 then !pixelAt acc.1 qx qy else pixelAt acc.1 qx qy := by
        intro qx qy
        simp only [togglePixel, pixelAt_setPixel]
        split_ifs with h
        · rw [hpx _ _ _ h.1 h.2]
        · rfl
      constructor
      · intro qx qy
        rw [i1, hpt]
        by_cases h : (px0+j)%64 = qx%64 ∧ py%32 = qy%32
        · have := hdis qx qy h.1
          simp [h, hcons, hb, this]
        · have : ColumnHits px0 py row (j::js) qx qy ↔ ColumnHits px0 py row js qx qy := by
            rw [hcons]; tauto
          simp [h, this]
      · rw [i2]
        constructor
        · rintro (h | ⟨qx, qy, h1, h2⟩)
          · simp only [togglePixel, Bool.or_eq_true] at h
            rcases h with h | h
            · exact .inl h
            · exact .inr ⟨px0+j, py, (hcons _ _).2 (.inl ⟨hb, rfl, rfl⟩), h⟩
          · right
            refine ⟨qx, qy, (hcons _ _).2 (.inr h1), ?_⟩
            have : ¬ ((px0+j)%64 = qx%64 ∧ py%32 = qy%32) := fun h => hdis _ _ h.1 h1
            rw [hpt, if_neg this] at h2; exact h2
        · rintro (h | ⟨qx, qy, h1, h2⟩)
          · left; simp [togglePixel, h]
          · rcases (hcons _ _).1 h1 with ⟨-, a, b⟩ | h
            · left; simp [togglePixel, hpx _ _ _ a b, h2]
            · right
              refine ⟨qx, qy, h, ?_⟩
              have : ¬ ((px0+j)%64 = qx%64 ∧ py%32 = qy%32) := fun h' => hdis _ _ h'.1 h
              rw [hpt, if_neg this]; exact h2
    · have : ∀ qx qy, ColumnHits px0 py row (j::js) qx qy ↔ ColumnHits px0 py row js qx qy := by
        intro qx qy; rw [hcons]; tauto
      simp only [hb] at i1 i2 ⊢
      simpa [this] using And.intro i1 i2

/-- A set bit of the sprite rows from row coordinate `py` down lands on the pixel (qx, qy). -/
def RowHits (px0 py : Nat) (rows : List Byte) (qx qy : Nat) : Prop :=
  ∃ i j, ∃ h : i < rows.length, j < 8 ∧ (rows[i]).getLsbD (7 - j) = true ∧
    (px0 + j) % 64 = qx % 64 ∧ (py + i) % 32 = qy % 32

open Classical in
/-- Drawing at most 15 rows inverts the pixels they hit, and no others, and records whether one of them
was on. -/
theorem drawRows_spec (px0 : Nat) (rows : List Byte) (py : Nat) (hl : rows.length < 16)
    (acc : PixelGrid × Bool) :
    (∀ qx qy, pixelAt (drawRows px0 py rows acc).1 qx qy =
      (pixelAt acc.1 qx qy ^^ decide (RowHits px0 py rows qx qy))) ∧
    ((drawRows px0 py rows acc).2 = true ↔
      acc.2 = true ∨ ∃ qx qy, RowHits px0 py rows qx qy ∧ pixelAt acc.1 qx qy = true) := by
  induction rows generalizing acc py with
  | nil => simp [drawRows, RowHits]
  | cons row rows ih =>
    simp only [List.length_cons] at hl
    obtain ⟨c1, c2⟩ := drawColumns_spec px0 py row (List.range 8) (by simp) (List.nodup_range) acc
    obtain ⟨i1, i2⟩ := ih (py+1) (by omega) (drawColumns px0 py row (List.range 8) acc)
    simp only [drawRows]
    have hcons : ∀ qx qy, RowHits px0 py (row::rows) qx qy ↔
        ColumnHits px0 py row (List.range 8) qx qy ∨ RowHits px0 (py+1) rows qx qy := by
      intro qx qy
      constructor
      · rintro ⟨i, j, h, h1, h2, h3, h4⟩
        cases i with
        | zero => exact .inl ⟨j, by simpa using h1, by simpa using h2, h3, by simpa using h4⟩
        | succ i => exact .inr ⟨i, j, by simpa using h, h1, by simpa using h2, h3, by
            rw [← h4]; congr 1; omega⟩
      · rintro (⟨j, h1, h2, h3, h4⟩ | ⟨i, j, h, h1, h2, h3, h4⟩)
        · exact ⟨0, j, by simp, by simpa using h1, by simpa using h2, h3, by simpa using h4⟩
        · exact ⟨i+1, j, by simpa using h, h1, by simpa using h2, h3, by
            rw [← h4]; congr 1; omega⟩
    have hdis : ∀ qx qy, ColumnHits px0 py row (List.range 8) qx qy →
        ¬ RowHits px0 (py+1) rows qx qy := by
      rintro qx qy ⟨j, -, -, -, h4⟩ ⟨i, k, h, -, -, -, h5⟩
      omega
    constructor
    · intro qx qy
      rw [i1, c1]
      by_cases h1 : ColumnHits px0 py row (List.range 8) qx qy
      · simp [hcons, h1, hdis _ _ h1]
      · simp [hcons, h1]
    · rw [i2, c2]
      constructor
      · rintro ((h | ⟨qx, qy, h1, h2⟩) | ⟨qx, qy, h1, h2⟩)
        · exact .inl h
        · exact .inr ⟨qx, qy, (hcons _ _).2 (.inl h1), h2⟩
        · have : ¬ ColumnHits px0 py row (List.range 8) qx qy := fun h => hdis _ _ h h1
          rw [c1] at h2; simp only [this] at h2
          exact .inr ⟨qx, qy, (hcons _ _).2 (.inr h1), by simpa using h2⟩
      · rintro (h | ⟨qx, qy, h1, h2⟩)
        · exact .inl (.inl h)
        · rcases (hcons _ _).1 h1 with h | h
          · exact .inl (.inr ⟨qx, qy, h, h2⟩)
          · have : ¬ ColumnHits px0 py row (List.range 8) qx qy := fun h' => hdis _ _ h' h
            exact .inr ⟨qx, qy, h, by rw [c1]; simp [this, h2]⟩

end Sys2Proof.Machine
end

