-- ==== Sys2Proof/Laws/Encoding.lean ====
section
/-! SUPPORT. The fields of a word written field beside field, and the rows such a word selects. -/

namespace Sys2Proof

theorem fieldsOf_regImm (o x : Nibble) (nn : Byte) :
    fieldsOf (o ++ x ++ nn) = ⟨o, x, nn.extractLsb' 4 4, nn.extractLsb' 0 4, nn, x ++ nn⟩ := by
  simp only [fieldsOf, Fields.mk.injEq]
  refine ⟨?_, ?_, ?_, ?_, ?_, ?_⟩ <;> ext i hi <;> simp <;> grind

theorem fieldsOf_regReg (o x y n : Nibble) :
    fieldsOf (o ++ x ++ y ++ n) = ⟨o, x, y, n, y ++ n, x ++ y ++ n⟩ := by
  simp only [fieldsOf, Fields.mk.injEq]
  refine ⟨?_, ?_, ?_, ?_, ?_, ?_⟩ <;> ext i hi <;> simp <;> grind

theorem fieldsOf_addr (o : Nibble) (nnn : Addr12) :
    fieldsOf (o ++ nnn) =
      ⟨o, nnn.extractLsb' 8 4, nnn.extractLsb' 4 4, nnn.extractLsb' 0 4, nnn.extractLsb' 0 8, nnn⟩ := by
  simp only [fieldsOf, Fields.mk.injEq]
  refine ⟨?_, ?_, ?_, ?_, ?_, ?_⟩ <;> ext i hi <;> simp <;> grind

/-- The fields of every word overlap as R55 says. -/
theorem fieldsOf_wellFormed (w : Word) : (fieldsOf w).wellFormed = true := by
  simp only [Fields.wellFormed, fieldsOf, Bool.and_eq_true, beq_iff_eq]
  constructor <;> ext i hi <;> grind

/-- A word is its primary opcode, its `x` field and its low byte side by side. -/
theorem word_eq_fields (w : Word) : w = (fieldsOf w).op ++ (fieldsOf w).x ++ (fieldsOf w).nn := by
  simp only [fieldsOf]
  ext i hi
  grind

/-- The and of two words written field beside field is taken field by field. -/
theorem and_regImm (o x o' x' : Nibble) (nn nn' : Byte) :
    ((o ++ x ++ nn : Word) &&& (o' ++ x' ++ nn' : Word)) =
      ((o &&& o') ++ (x &&& x') ++ (nn &&& nn') : Word) :=
  BitVec.and_append.trans (by rw [BitVec.and_append])

theorem and_regReg (o x y n o' x' y' n' : Nibble) :
    ((o ++ x ++ y ++ n : Word) &&& (o' ++ x' ++ y' ++ n' : Word)) =
      ((o &&& o') ++ (x &&& x') ++ (y &&& y') ++ (n &&& n') : Word) :=
  BitVec.and_append.trans (by rw [BitVec.and_append, BitVec.and_append])

theorem and_addr (o o' : Nibble) (a a' : Addr12) :
    ((o ++ a : Word) &&& (o' ++ a' : Word)) = ((o &&& o') ++ (a &&& a') : Word) :=
  BitVec.and_append

/-- Masking with 0xF000 keeps the primary opcode alone. -/
theorem mask_op_regImm (o x : Nibble) (nn : Byte) :
    (o ++ x ++ nn : Word) &&& 0xF000#16 = (o ++ 0x0#4 ++ 0x00#8 : Word) := by
  have h : 0xF000#16 = (0xF#4 ++ 0x0#4 ++ 0x00#8 : Word) := by decide
  rw [h, and_regImm]
  have h1 : o &&& 0xF#4 = o := by revert o; decide
  simp only [h1, BitVec.and_zero]

theorem mask_op_addr (o : Nibble) (nnn : Addr12) :
    (o ++ nnn : Word) &&& 0xF000#16 = (o ++ 0x000#12 : Word) := by
  have h : 0xF000#16 = (0xF#4 ++ 0x000#12 : Word) := by decide
  rw [h, and_addr]
  have h1 : o &&& 0xF#4 = o := by revert o; decide
  simp only [h1, BitVec.and_zero]

theorem mask_op_regReg (o x y n : Nibble) :
    (o ++ x ++ y ++ n : Word) &&& 0xF000#16 = (o ++ 0x0#4 ++ 0x0#4 ++ 0x0#4 : Word) := by
  have h : 0xF000#16 = (0xF#4 ++ 0x0#4 ++ 0x0#4 ++ 0x0#4 : Word) := by decide
  rw [h, and_regReg]
  have h1 : o &&& 0xF#4 = o := by revert o; decide
  simp only [h1, BitVec.and_zero]

/-- Masking with 0xF00F keeps the primary opcode and the low nibble. -/
theorem mask_opN (o x y n : Nibble) :
    (o ++ x ++ y ++ n : Word) &&& 0xF00F#16 = (o ++ 0x0#4 ++ 0x0#4 ++ n : Word) := by
  have h : 0xF00F#16 = (0xF#4 ++ 0x0#4 ++ 0x0#4 ++ 0xF#4 : Word) := by decide
  rw [h, and_regReg]
  have h1 : ∀ o : Nibble, o &&& 0xF#4 = o := by decide
  simp only [h1, BitVec.and_zero]

/-- Masking with 0xF0FF keeps the primary opcode and the low byte. -/
theorem mask_opNn (o x : Nibble) (nn : Byte) :
    (o ++ x ++ nn : Word) &&& 0xF0FF#16 = (o ++ 0x0#4 ++ nn : Word) := by
  have h : 0xF0FF#16 = (0xF#4 ++ 0x0#4 ++ 0xFF#8 : Word) := by decide
  rw [h, and_regImm]
  have h1 : o &&& 0xF#4 = o := by revert o; decide
  have h2 : nn &&& 0xFF#8 = nn := by revert nn; decide
  simp only [h1, h2, BitVec.and_zero]

end Sys2Proof
end

