-- ==== Sys2Proof/Laws/PerInstr.lean ====
section
/-! SUPPORT. Facts made per instruction. SelectsRow: the word of an instruction selects the row of the
opcode map that bears the instruction's mnemonic (spec/30_encoding.md R59). -/

namespace Sys2Proof.Laws

/-- The word of `i` selects a row of the opcode map, and that row bears the mnemonic of `i`. -/
def SelectsRow.Statement (i : Instr) : Prop :=
  ∃ row ∈ opcodeMap, row.mnemonic = i.mnemonic ∧ row.selects (encode i) = true

/-- A row of the map, the mnemonic it bears, and the masked word it equals. -/
theorem selectsRow_of {i : Instr} (row : OpcodeRow) (hmem : row ∈ opcodeMap)
    (hname : row.mnemonic = i.mnemonic) (h : encode i &&& row.mask = row.pattern) :
    SelectsRow.Statement i :=
  ⟨row, hmem, hname, by simp [OpcodeRow.selects, h]⟩

theorem SelectsRow.cls : SelectsRow.Statement .cls :=
  selectsRow_of ⟨"CLS", 0x00E0#16, 0xFFFF#16⟩ (by decide) rfl (by decide)

theorem SelectsRow.ret : SelectsRow.Statement .ret :=
  selectsRow_of ⟨"RET", 0x00EE#16, 0xFFFF#16⟩ (by decide) rfl (by decide)

theorem SelectsRow.jpNnn (nnn : Addr12) : SelectsRow.Statement (.jpNnn nnn) :=
  selectsRow_of ⟨"JP_nnn", 0x1000#16, 0xF000#16⟩ (by decide) rfl (mask_op_addr _ _)

theorem SelectsRow.callNnn (nnn : Addr12) : SelectsRow.Statement (.callNnn nnn) :=
  selectsRow_of ⟨"CALL_nnn", 0x2000#16, 0xF000#16⟩ (by decide) rfl (mask_op_addr _ _)

theorem SelectsRow.seVxNn (x : Nibble) (nn : Byte) : SelectsRow.Statement (.seVxNn x nn) :=
  selectsRow_of ⟨"SE_Vx__nn", 0x3000#16, 0xF000#16⟩ (by decide) rfl (mask_op_regImm _ _ _)

theorem SelectsRow.sneVxNn (x : Nibble) (nn : Byte) : SelectsRow.Statement (.sneVxNn x nn) :=
  selectsRow_of ⟨"SNE_Vx__nn", 0x4000#16, 0xF000#16⟩ (by decide) rfl (mask_op_regImm _ _ _)

theorem SelectsRow.seVxVy (x y : Nibble) : SelectsRow.Statement (.seVxVy x y) :=
  selectsRow_of ⟨"SE_Vx__Vy", 0x5000#16, 0xF00F#16⟩ (by decide) rfl (mask_opN _ _ _ _)

theorem SelectsRow.ldVxNn (x : Nibble) (nn : Byte) : SelectsRow.Statement (.ldVxNn x nn) :=
  selectsRow_of ⟨"LD_Vx__nn", 0x6000#16, 0xF000#16⟩ (by decide) rfl (mask_op_regImm _ _ _)

theorem SelectsRow.addVxNn (x : Nibble) (nn : Byte) : SelectsRow.Statement (.addVxNn x nn) :=
  selectsRow_of ⟨"ADD_Vx__nn", 0x7000#16, 0xF000#16⟩ (by decide) rfl (mask_op_regImm _ _ _)

theorem SelectsRow.ldVxVy (x y : Nibble) : SelectsRow.Statement (.ldVxVy x y) :=
  selectsRow_of ⟨"LD_Vx__Vy", 0x8000#16, 0xF00F#16⟩ (by decide) rfl (mask_opN _ _ _ _)

theorem SelectsRow.orVxVy (x y : Nibble) : SelectsRow.Statement (.orVxVy x y) :=
  selectsRow_of ⟨"OR_Vx__Vy", 0x8001#16, 0xF00F#16⟩ (by decide) rfl (mask_opN _ _ _ _)

theorem SelectsRow.andVxVy (x y : Nibble) : SelectsRow.Statement (.andVxVy x y) :=
  selectsRow_of ⟨"AND_Vx__Vy", 0x8002#16, 0xF00F#16⟩ (by decide) rfl (mask_opN _ _ _ _)

theorem SelectsRow.xorVxVy (x y : Nibble) : SelectsRow.Statement (.xorVxVy x y) :=
  selectsRow_of ⟨"XOR_Vx__Vy", 0x8003#16, 0xF00F#16⟩ (by decide) rfl (mask_opN _ _ _ _)

theorem SelectsRow.addVxVy (x y : Nibble) : SelectsRow.Statement (.addVxVy x y) :=
  selectsRow_of ⟨"ADD_Vx__Vy", 0x8004#16, 0xF00F#16⟩ (by decide) rfl (mask_opN _ _ _ _)

theorem SelectsRow.subVxVy (x y : Nibble) : SelectsRow.Statement (.subVxVy x y) :=
  selectsRow_of ⟨"SUB_Vx__Vy", 0x8005#16, 0xF00F#16⟩ (by decide) rfl (mask_opN _ _ _ _)

theorem SelectsRow.shrVxVy (x y : Nibble) : SelectsRow.Statement (.shrVxVy x y) :=
  selectsRow_of ⟨"SHR_Vx____Vy", 0x8006#16, 0xF00F#16⟩ (by decide) rfl (mask_opN _ _ _ _)

theorem SelectsRow.subnVxVy (x y : Nibble) : SelectsRow.Statement (.subnVxVy x y) :=
  selectsRow_of ⟨"SUBN_Vx__Vy", 0x8007#16, 0xF00F#16⟩ (by decide) rfl (mask_opN _ _ _ _)

theorem SelectsRow.shlVxVy (x y : Nibble) : SelectsRow.Statement (.shlVxVy x y) :=
  selectsRow_of ⟨"SHL_Vx____Vy", 0x800E#16, 0xF00F#16⟩ (by decide) rfl (mask_opN _ _ _ _)

theorem SelectsRow.sneVxVy (x y : Nibble) : SelectsRow.Statement (.sneVxVy x y) :=
  selectsRow_of ⟨"SNE_Vx__Vy", 0x9000#16, 0xF00F#16⟩ (by decide) rfl (mask_opN _ _ _ _)

theorem SelectsRow.ldINnn (nnn : Addr12) : SelectsRow.Statement (.ldINnn nnn) :=
  selectsRow_of ⟨"LD_I__nnn", 0xA000#16, 0xF000#16⟩ (by decide) rfl (mask_op_addr _ _)

theorem SelectsRow.jpV0Nnn (nnn : Addr12) : SelectsRow.Statement (.jpV0Nnn nnn) :=
  selectsRow_of ⟨"JP_V0__nnn", 0xB000#16, 0xF000#16⟩ (by decide) rfl (mask_op_addr _ _)

theorem SelectsRow.rndVxNn (x : Nibble) (nn : Byte) : SelectsRow.Statement (.rndVxNn x nn) :=
  selectsRow_of ⟨"RND_Vx__nn", 0xC000#16, 0xF000#16⟩ (by decide) rfl (mask_op_regImm _ _ _)

theorem SelectsRow.drwVxVyN (x y n : Nibble) : SelectsRow.Statement (.drwVxVyN x y n) :=
  selectsRow_of ⟨"DRW_Vx__Vy__n", 0xD000#16, 0xF000#16⟩ (by decide) rfl (mask_op_regReg _ _ _ _)

theorem SelectsRow.skpVx (x : Nibble) : SelectsRow.Statement (.skpVx x) :=
  selectsRow_of ⟨"SKP_Vx", 0xE09E#16, 0xF0FF#16⟩ (by decide) rfl (mask_opNn _ _ _)

theorem SelectsRow.sknpVx (x : Nibble) : SelectsRow.Statement (.sknpVx x) :=
  selectsRow_of ⟨"SKNP_Vx", 0xE0A1#16, 0xF0FF#16⟩ (by decide) rfl (mask_opNn _ _ _)

theorem SelectsRow.ldVxDt (x : Nibble) : SelectsRow.Statement (.ldVxDt x) :=
  selectsRow_of ⟨"LD_Vx__DT", 0xF007#16, 0xF0FF#16⟩ (by decide) rfl (mask_opNn _ _ _)

theorem SelectsRow.ldVxK (x : Nibble) : SelectsRow.Statement (.ldVxK x) :=
  selectsRow_of ⟨"LD_Vx__K", 0xF00A#16, 0xF0FF#16⟩ (by decide) rfl (mask_opNn _ _ _)

theorem SelectsRow.ldDtVx (x : Nibble) : SelectsRow.Statement (.ldDtVx x) :=
  selectsRow_of ⟨"LD_DT__Vx", 0xF015#16, 0xF0FF#16⟩ (by decide) rfl (mask_opNn _ _ _)

theorem SelectsRow.ldStVx (x : Nibble) : SelectsRow.Statement (.ldStVx x) :=
  selectsRow_of ⟨"LD_ST__Vx", 0xF018#16, 0xF0FF#16⟩ (by decide) rfl (mask_opNn _ _ _)

theorem SelectsRow.addIVx (x : Nibble) : SelectsRow.Statement (.addIVx x) :=
  selectsRow_of ⟨"ADD_I__Vx", 0xF01E#16, 0xF0FF#16⟩ (by decide) rfl (mask_opNn _ _ _)

theorem SelectsRow.ldFVx (x : Nibble) : SelectsRow.Statement (.ldFVx x) :=
  selectsRow_of ⟨"LD_F__Vx", 0xF029#16, 0xF0FF#16⟩ (by decide) rfl (mask_opNn _ _ _)

theorem SelectsRow.ldBVx (x : Nibble) : SelectsRow.Statement (.ldBVx x) :=
  selectsRow_of ⟨"LD_B__Vx", 0xF033#16, 0xF0FF#16⟩ (by decide) rfl (mask_opNn _ _ _)

theorem SelectsRow.ldMemVx (x : Nibble) : SelectsRow.Statement (.ldMemVx x) :=
  selectsRow_of ⟨"LD__I___Vx", 0xF055#16, 0xF0FF#16⟩ (by decide) rfl (mask_opNn _ _ _)

theorem SelectsRow.ldVxMem (x : Nibble) : SelectsRow.Statement (.ldVxMem x) :=
  selectsRow_of ⟨"LD_Vx___I", 0xF065#16, 0xF0FF#16⟩ (by decide) rfl (mask_opNn _ _ _)

end Sys2Proof.Laws
end

