-- ==== Sys2Proof/Laws/Step.lean ====
section
/-! SUPPORT. What one step can do, said once; the cycle on a fetched word; placing an instruction. -/

namespace Sys2Proof.Machine

/-- The meaning of an instruction never stops: it answers a next state. -/
theorem exec_next (i : Instr) (s : State) : ∃ t, exec i s = .next t := by
  cases i <;> exact ⟨_, rfl⟩

/-- The action on a word that decodes to no instruction. -/
theorem execWord_reject {w : Word} {e : DecodeReject} (h : decodeWord w = .error e) (s : State) :
    execWord w s = .next (settle s (unrecognizedAction w s)) := by
  simp [execWord, h]

theorem execWord_decoded {w : Word} {i : Instr} (h : decodeWord w = .ok i) (s : State) :
    execWord w s = exec i s := by
  simp [execWord, h]

theorem execWord_next (w : Word) (s : State) : ∃ t, execWord w s = .next t := by
  unfold execWord
  split
  · exact exec_next _ s
  · exact ⟨_, rfl⟩

/-- A step of a faulted core answers the fault, and every other step answers a next state: the entry of
a fetch fault, or the execution of the fetched word after the advance. -/
theorem step_cases (s : State) :
    (s.status.state = .faulted ∧ step s = .fault (.coreFaulted s.status)) ∨
    (s.status.state = .running ∧ 4094 < s.pc.toNat ∧
      step s = .next (enterFault s.pc (outOfBoundsAt (max s.pc.toNat 4096)) (hostTurn s))) ∨
    (s.status.state = .running ∧ s.pc.toNat ≤ 4094 ∧
      step s = execWord (fetchedWord s) (advancePc (hostTurn s))) := by
  cases h : s.status.state with
  | faulted => exact .inl ⟨rfl, by simp [step, hostTurnThenCycle, h]⟩
  | running =>
    refine .inr ?_
    by_cases hp : s.pc.toNat ≤ 4094
    · exact .inr ⟨rfl, hp, by simp [step, hostTurnThenCycle, h, cycle, fetch16_eq, hp, fetchedWord]⟩
    · exact .inl ⟨rfl, by omega, by
        simp [step, hostTurnThenCycle, h, cycle, fetch16_eq, hp]⟩

/-- A running core always has a step. -/
theorem step_next_of_running {s : State} (h : s.status.state = .running) : ∃ t, step s = .next t := by
  rcases step_cases s with ⟨hf, -⟩ | ⟨-, -, hs⟩ | ⟨-, -, hs⟩
  · rw [h] at hf
    cases hf
  · exact ⟨_, hs⟩
  · rw [hs]
    exact execWord_next _ _

/-- Splitting a word into its two bytes and joining them gives the word. -/
theorem joinBytes_wordBytes (w : Word) : joinBytes (w.extractLsb' 8 8) (w.extractLsb' 0 8) = w := by
  unfold joinBytes
  ext i hi
  grind

/-- The word placed at the program counter is the word the next cycle fetches. -/
theorem fetchedWord_placeWord {s : State} (hm : Memory.wf s.mem = true) (hp : s.pc.toNat ≤ 4094)
    (w : Word) : fetchedWord (placeWord s w) = w := by
  have hlen : s.pc.toNat + 2 ≤ 4096 := by omega
  simp only [placeWord, memWriteBytes_eq, wordBytes, List.length_cons, List.length_nil, Nat.zero_add,
    Nat.reduceAdd, hlen, or_true, if_true, fetchedWord]
  rw [memGet_memSetBytes hm (by simp; omega), memGet_memSetBytes hm (by simp; omega)]
  simp [joinBytes_wordBytes]

end Sys2Proof.Machine
end

