-- ==== Sys2Proof/Tests/Slice0.lean ====
section
/-! SUPPORT. The model's own tests. Expected values are the spec's: the encodings of 30_encoding.md and
the vectors T1 to T113 of 95_test_vectors.md (named in each comment). Then, for each statement of the
obligations with hypotheses, a witness that meets them, one per clause at a boundary of its range. -/

namespace Sys2Proof.Tests

open Sys2Proof Sys2Proof.Machine

/-! ### The checks of WellFormed refuse -/

/-- The mask leaves out the primary opcode. -/
theorem test_row_refuses_mask : OpcodeRow.wellFormed ⟨"CLS", 0x00E0#16, 0x0FFF#16⟩ = false := by decide

/-- The pattern sets a bit outside the mask. -/
theorem test_row_refuses_pattern : OpcodeRow.wellFormed ⟨"JP_nnn", 0x1001#16, 0xF000#16⟩ = false := by
  decide

theorem test_rows_are_wellformed : opcodeMap.all OpcodeRow.wellFormed = true := by decide

/-- `nn` is not `y` beside `n`. -/
theorem test_fields_refuses_nn :
    Fields.wellFormed ⟨0xD#4, 1#4, 2#4, 0xA#4, 0x2B#8, 0x12A#12⟩ = false := by decide

/-- `nnn` is not `x` beside `nn`. -/
theorem test_fields_refuses_nnn :
    Fields.wellFormed ⟨0xD#4, 1#4, 2#4, 0xA#4, 0x2A#8, 0x22A#12⟩ = false := by decide

/-- The fields of 0xD12A (worked example 1). -/
theorem test_fields_of_D12A :
    fieldsOf 0xD12A#16 = ⟨0xD#4, 1#4, 2#4, 0xA#4, 0x2A#8, 0x12A#12⟩ ∧
    (fieldsOf 0xD12A#16).wellFormed = true := by decide

/-- 3585 bytes do not fit, 3584 do (R48). -/
theorem test_rom_refuses_3585 :
    romFits (List.replicate 3585 0xAA#8) = false ∧ romFits (List.replicate 3584 0xAA#8) = true := by
  simp only [romFits, List.length_replicate, Config.romBase, Config.memSize]
  decide

/-! ### Decoding written-out words, one per constructor -/

theorem test_decode_low :
    decodeWord 0x00E0#16 = .ok .cls ∧ decodeWord 0x00EE#16 = .ok .ret ∧
    decodeWord 0x1ABC#16 = .ok (.jpNnn 0xABC#12) ∧ decodeWord 0x2206#16 = .ok (.callNnn 0x206#12) ∧
    decodeWord 0x3F01#16 = .ok (.seVxNn 0xF#4 0x01#8) ∧
    decodeWord 0x4342#16 = .ok (.sneVxNn 3#4 0x42#8) ∧
    decodeWord 0x5120#16 = .ok (.seVxVy 1#4 2#4) ∧
    decodeWord 0x6A12#16 = .ok (.ldVxNn 0xA#4 0x12#8) ∧
    decodeWord 0x72F5#16 = .ok (.addVxNn 2#4 0xF5#8) := by decide

theorem test_decode_class8 :
    decodeWord 0x8120#16 = .ok (.ldVxVy 1#4 2#4) ∧ decodeWord 0x8121#16 = .ok (.orVxVy 1#4 2#4) ∧
    decodeWord 0x8122#16 = .ok (.andVxVy 1#4 2#4) ∧ decodeWord 0x8123#16 = .ok (.xorVxVy 1#4 2#4) ∧
    decodeWord 0x8124#16 = .ok (.addVxVy 1#4 2#4) ∧ decodeWord 0x8125#16 = .ok (.subVxVy 1#4 2#4) ∧
    decodeWord 0x8126#16 = .ok (.shrVxVy 1#4 2#4) ∧ decodeWord 0x8127#16 = .ok (.subnVxVy 1#4 2#4) ∧
    decodeWord 0x812E#16 = .ok (.shlVxVy 1#4 2#4) := by decide

theorem test_decode_9_to_D :
    decodeWord 0x9120#16 = .ok (.sneVxVy 1#4 2#4) ∧ decodeWord 0xA300#16 = .ok (.ldINnn 0x300#12) ∧
    decodeWord 0xB500#16 = .ok (.jpV0Nnn 0x500#12) ∧
    decodeWord 0xC10F#16 = .ok (.rndVxNn 1#4 0x0F#8) ∧
    decodeWord 0xD12A#16 = .ok (.drwVxVyN 1#4 2#4 0xA#4) := by decide

theorem test_decode_E_and_F :
    decodeWord 0xE59E#16 = .ok (.skpVx 5#4) ∧ decodeWord 0xE5A1#16 = .ok (.sknpVx 5#4) ∧
    decodeWord 0xF307#16 = .ok (.ldVxDt 3#4) ∧ decodeWord 0xF10A#16 = .ok (.ldVxK 1#4) ∧
    decodeWord 0xF315#16 = .ok (.ldDtVx 3#4) ∧ decodeWord 0xF418#16 = .ok (.ldStVx 4#4) ∧
    decodeWord 0xF21E#16 = .ok (.addIVx 2#4) ∧ decodeWord 0xF329#16 = .ok (.ldFVx 3#4) ∧
    decodeWord 0xF133#16 = .ok (.ldBVx 1#4) ∧ decodeWord 0xF255#16 = .ok (.ldMemVx 2#4) ∧
    decodeWord 0xF265#16 = .ok (.ldVxMem 2#4) := by decide

/-- T8, T10 to T14: words of the unrecognized space. -/
theorem test_decode_rejects :
    decodeWord 0x0123#16 = .error (.unrecognized .class0) ∧
    decodeWord 0x5121#16 = .error (.unrecognized .class5) ∧
    decodeWord 0x9121#16 = .error (.unrecognized .class9) ∧
    decodeWord 0x8128#16 = .error (.unrecognized .class8) ∧
    decodeWord 0xE19F#16 = .error (.unrecognized .classE) ∧
    decodeWord 0xF1FF#16 = .error (.unrecognized .classF) ∧ decode [0x00#8] = .error .tooShort := by
  decide

/-- The host's numbering: bit 0 is bit 0 of the one word. -/
theorem test_table_word : decodeTableWord 16 0x8124 = some (.addVxVy 1#4 2#4) ∧
    decodeTableWord 16 0x8128 = none ∧ encodeBytes (.addVxVy 1#4 2#4) = [0x81#8, 0x24#8] := by decide

/-! ### One step on a small state -/

/-- The reset state with some registers set. -/
def withRegs (l : List (Nibble × Byte)) : State := l.foldl (fun s p => writeV s p.1 p.2) State.reset

/-- The state with some bytes of memory set. -/
def withBytes (s : State) (a : Nat) (bytes : List Byte) : State :=
  { s with mem := memSetBytes s.mem a bytes }

/-- The state with one key down. -/
def withKey (s : State) (k : Nibble) : State := { s with keys := s.keys.set k.toNat true k.isLt }

/-- A word where the next cycle fetches, and a host that schedules no tick, the keys of the state and
the random byte 0xA7. -/
def fetching (s : State) (w : Word) : State :=
  placeWord { s with inputs := [⟨0, s.keys, 0xA7#8⟩] } w

/-- The state after one step. -/
def stepped (s : State) : State :=
  match step s with
  | .next t => t
  | .fault _ => s
  | .refused _ => s

/-- The state after one step that executes a word. -/
def after (s : State) (w : Word) : State := stepped (fetching s w)

theorem test_reset_invariant : State.reset.Inv := by decide

/-- T2: an odd program counter is legal. -/
theorem test_fetch_odd :
    (after { State.reset with pc := 0x201#16 } 0x6A12#16).pc = 0x203#16 ∧
    readV (after { State.reset with pc := 0x201#16 } 0x6A12#16) 0xA#4 = 0x12#8 := by decide

/-- T4, T6: fetch faults keep `pc`. -/
theorem test_fetch_faults :
    (stepped { State.reset with pc := 0xFFF#16 }).status =
      ⟨.faulted, .outOfBounds, 0xFFF#16, 0x1000#16⟩ ∧
    (stepped { State.reset with pc := 0x10FE#16 }).status =
      ⟨.faulted, .outOfBounds, 0x10FE#16, 0x10FE#16⟩ ∧
    (stepped { State.reset with pc := 0x10FE#16 }).pc = 0x10FE#16 := by decide

/-- T8, T9: an unrecognized word. -/
theorem test_unrecognized :
    (after State.reset 0x0123#16).diag = [⟨0x200#16, 0x0123#16⟩] ∧
    (after { State.reset with strictDecode := true } 0x0123#16).status =
      ⟨.faulted, .unknownOpcode, 0x200#16, 0x0123#16⟩ := by decide

/-- T16. -/
theorem test_cls :
    pixelAt (after { State.reset with fb := setPixel blankGrid 63 31 true } 0x00E0#16).fb 63 31 = false := by
  decide

/-- T21: two rows that wrap at the right and the bottom edge. -/
theorem test_drw_wraps :
    (let t := after (withBytes { withRegs [(1#4, 60#8), (2#4, 31#8)] with index := 0x300#16 }
        0x300 [0x81#8, 0x80#8]) 0xD122#16;
      pixelAt t.fb 3 31 && pixelAt t.fb 60 0 && pixelAt t.fb 60 31 && !pixelAt t.fb 61 31 &&
        !pixelAt t.fb 3 0 && readV t 0xF#4 == 0#8) = true := by decide

/-- T26: VF as a coordinate, read before the collision flag replaces it. -/
theorem test_drw_collision :
    (let t := after (withBytes { withRegs [(0xF#4, 10#8)] with
        index := 0x300#16, fb := setPixel blankGrid 10 10 true } 0x300 [0xC0#8]) 0xDFF1#16;
      pixelAt t.fb 11 10 && !pixelAt t.fb 10 10 && readV t 0xF#4 == 1#8) = true := by decide

/-- T29, T30. -/
theorem test_ret :
    (after { State.reset with stack := [0x202#16, 0x40A#16] } 0x00EE#16).pc = 0x40A#16 ∧
    (after { State.reset with stack := [0x202#16, 0x40A#16] } 0x00EE#16).stack = [0x202#16] ∧
    (after State.reset 0x00EE#16).status = ⟨.faulted, .stackUnderflow, 0x200#16, 0#16⟩ ∧
    (after State.reset 0x00EE#16).pc = 0x202#16 := by decide

/-- T33. -/
theorem test_jp : (after State.reset 0x1FFF#16).pc = 0xFFF#16 := by decide

/-- T34. -/
theorem test_call :
    (after { State.reset with pc := 0x204#16 } 0x2300#16).pc = 0x300#16 ∧
    (after { State.reset with pc := 0x204#16 } 0x2300#16).stack = [0x206#16] := by decide

/-- T36. -/
theorem test_call_overflow :
    (after { State.reset with stack := List.replicate 16 0x202#16 } 0x2400#16).status =
      ⟨.faulted, .stackOverflow, 0x200#16, 0#16⟩ := by decide

/-- T37, T38. -/
theorem test_se_byte :
    (after (withRegs [(3#4, 0x42#8)]) 0x3342#16).pc = 0x204#16 ∧
    (after (withRegs [(3#4, 0x41#8)]) 0x3342#16).pc = 0x202#16 := by decide

/-- T39, T40. -/
theorem test_sne_byte :
    (after (withRegs [(3#4, 0x41#8)]) 0x4342#16).pc = 0x204#16 ∧
    (after (withRegs [(3#4, 0x42#8)]) 0x4342#16).pc = 0x202#16 := by decide

/-- T42, T43. -/
theorem test_se_register :
    (after (withRegs [(1#4, 7#8), (2#4, 7#8)]) 0x5120#16).pc = 0x204#16 ∧
    (after (withRegs [(1#4, 7#8), (2#4, 8#8)]) 0x5120#16).pc = 0x202#16 := by decide

/-- T45, T46. -/
theorem test_sne_register :
    (after (withRegs [(1#4, 7#8), (2#4, 8#8)]) 0x9120#16).pc = 0x204#16 ∧
    (after (withRegs [(1#4, 7#8)]) 0x9110#16).pc = 0x202#16 := by decide

/-- T49: the sum is not reduced to 12 bits; T50: always V0. -/
theorem test_jp_v0 :
    (after (withRegs [(0#4, 0xFF#8)]) 0xBFFF#16).pc = 0x10FE#16 ∧
    (after (withRegs [(0#4, 1#8), (5#4, 0x80#8)]) 0xB500#16).pc = 0x501#16 := by decide

/-- T51. -/
theorem test_ld_byte : readV (after (withRegs [(0xF#4, 0x33#8)]) 0x6F07#16) 0xF#4 = 0x07#8 := by decide

/-- T53: wraps, and VF keeps its value. -/
theorem test_add_byte :
    readV (after (withRegs [(2#4, 0x10#8), (0xF#4, 0x33#8)]) 0x72F5#16) 2#4 = 0x05#8 ∧
    readV (after (withRegs [(2#4, 0x10#8), (0xF#4, 0x33#8)]) 0x72F5#16) 0xF#4 = 0x33#8 := by decide

/-- T55. -/
theorem test_ld_register : readV (after (withRegs [(3#4, 9#8)]) 0x8130#16) 1#4 = 9#8 := by decide

/-- T56: VF is not reset. -/
theorem test_or :
    readV (after (withRegs [(1#4, 0x0F#8), (2#4, 0xF0#8), (0xF#4, 7#8)]) 0x8121#16) 1#4 = 0xFF#8 ∧
    readV (after (withRegs [(1#4, 0x0F#8), (2#4, 0xF0#8), (0xF#4, 7#8)]) 0x8121#16) 0xF#4 = 7#8 := by
  decide

/-- T57. -/
theorem test_and : readV (after (withRegs [(1#4, 0x3C#8), (2#4, 0x0F#8)]) 0x8122#16) 1#4 = 0x0C#8 := by
  decide

/-- T58. -/
theorem test_xor : readV (after (withRegs [(1#4, 0x3C#8), (2#4, 0x0F#8)]) 0x8123#16) 1#4 = 0x33#8 := by
  decide

/-- T60, T61. -/
theorem test_add_register :
    readV (after (withRegs [(1#4, 0xFF#8), (2#4, 1#8)]) 0x8124#16) 1#4 = 0#8 ∧
    readV (after (withRegs [(1#4, 0xFF#8), (2#4, 1#8)]) 0x8124#16) 0xF#4 = 1#8 ∧
    readV (after (withRegs [(1#4, 0xFE#8), (2#4, 1#8), (0xF#4, 1#8)]) 0x8124#16) 0xF#4 = 0#8 := by
  decide

/-- T63: the carry overwrites the sum; T64: the addend is the old VF. -/
theorem test_add_vf :
    readV (after (withRegs [(0xF#4, 0x90#8), (2#4, 0x90#8)]) 0x8F24#16) 0xF#4 = 1#8 ∧
    readV (after (withRegs [(1#4, 0x10#8), (0xF#4, 0xF0#8)]) 0x81F4#16) 1#4 = 0#8 := by decide

/-- T65, T66: equality is no borrow. -/
theorem test_sub :
    readV (after (withRegs [(1#4, 5#8), (2#4, 7#8)]) 0x8125#16) 1#4 = 0xFE#8 ∧
    readV (after (withRegs [(1#4, 5#8), (2#4, 7#8)]) 0x8125#16) 0xF#4 = 0#8 ∧
    readV (after (withRegs [(1#4, 7#8), (2#4, 7#8)]) 0x8125#16) 0xF#4 = 1#8 := by decide

/-- T69, T70: Vy is ignored. -/
theorem test_shr :
    readV (after (withRegs [(1#4, 5#8)]) 0x8106#16) 0xF#4 = 1#8 ∧
    readV (after (withRegs [(1#4, 4#8), (2#4, 0xFF#8)]) 0x8126#16) 1#4 = 2#8 ∧
    readV (after (withRegs [(1#4, 4#8), (2#4, 0xFF#8)]) 0x8126#16) 0xF#4 = 0#8 := by decide

/-- T72, T73. -/
theorem test_subn :
    readV (after (withRegs [(1#4, 5#8), (2#4, 7#8)]) 0x8127#16) 1#4 = 2#8 ∧
    readV (after (withRegs [(1#4, 5#8), (2#4, 7#8)]) 0x8127#16) 0xF#4 = 1#8 ∧
    readV (after (withRegs [(1#4, 7#8), (2#4, 5#8)]) 0x8127#16) 1#4 = 0xFE#8 := by decide

/-- T74, T76: the old bit 7 overwrites the shifted value. -/
theorem test_shl :
    readV (after (withRegs [(1#4, 0x81#8)]) 0x810E#16) 1#4 = 2#8 ∧
    readV (after (withRegs [(0xF#4, 0x80#8)]) 0x8F0E#16) 0xF#4 = 1#8 := by decide

/-- T77, T79: the draw of the cycle is 0xA7. -/
theorem test_rnd :
    readV (after State.reset 0xC10F#16) 1#4 = 0x07#8 ∧
    readV (after State.reset 0xC1FF#16) 1#4 = 0xA7#8 := by decide

/-- T80. -/
theorem test_ld_index : (after State.reset 0xA300#16).index = 0x300#16 := by decide

/-- T81, T82. -/
theorem test_add_index :
    (after { withRegs [(2#4, 5#8)] with index := 0xFFE#16 } 0xF21E#16).index = 0x1003#16 ∧
    readV (after { withRegs [(2#4, 5#8)] with index := 0xFFE#16 } 0xF21E#16) 0xF#4 = 1#8 ∧
    readV (after { State.reset with index := 0xFFF#16 } 0xF21E#16) 0xF#4 = 0#8 := by decide

/-- T86: the addend is the old VF. -/
theorem test_add_index_vf :
    (after { withRegs [(0xF#4, 0x10#8)] with index := 0x200#16 } 0xFF1E#16).index = 0x210#16 := by decide

/-- T87, T15. -/
theorem test_ld_font :
    (after (withRegs [(3#4, 5#8)]) 0xF329#16).diag = [⟨0x200#16, 0xF329#16⟩] ∧
    (after { State.reset with strictDecode := true } 0xF129#16).status =
      ⟨.faulted, .unknownOpcode, 0x200#16, 0xF129#16⟩ := by decide

/-- T90: the last legal base. -/
theorem test_ld_bcd :
    (let t := after { withRegs [(1#4, 255#8)] with index := 0xFFD#16 } 0xF133#16;
      memReadBytes t.mem 0xFFD 3) = .ok [2#8, 5#8, 5#8] := by decide

/-- T91: checks come before writes. -/
theorem test_ld_bcd_fault :
    (let t := after { withRegs [(1#4, 255#8)] with index := 0xFFE#16 } 0xF133#16;
      (t.status, memGet t.mem 0xFFE)) =
      (⟨.faulted, .outOfBounds, 0x200#16, 0x1000#16⟩, 0#8) := by decide

/-- T92. -/
theorem test_store_range :
    (let t := after { withRegs [(0#4, 1#8), (1#4, 2#8), (2#4, 3#8), (3#4, 4#8)] with
        index := 0x400#16 } 0xF255#16;
      (memReadBytes t.mem 0x400 4, t.index)) = (.ok [1#8, 2#8, 3#8, 0#8], 0x400#16) := by decide

/-- T95: one byte past the top. -/
theorem test_store_range_fault :
    (after { State.reset with index := 0xFF1#16 } 0xFF55#16).status =
      ⟨.faulted, .outOfBounds, 0x200#16, 0x1000#16⟩ := by decide

/-- T96. -/
theorem test_load_range :
    (let t := after (withBytes { State.reset with index := 0x400#16 } 0x400 [7#8, 8#8, 9#8, 1#8])
        0xF265#16;
      [readV t 0#4, readV t 1#4, readV t 2#4, readV t 3#4]) = [7#8, 8#8, 9#8, 0#8] := by decide

/-- T98. -/
theorem test_load_range_fault :
    (after { State.reset with index := 0x1005#16 } 0xF065#16).status =
      ⟨.faulted, .outOfBounds, 0x200#16, 0x1005#16⟩ := by decide

/-- T99, T103. -/
theorem test_skp :
    (after (withKey (withRegs [(5#4, 0xA#8)]) 0xA#4) 0xE59E#16).pc = 0x204#16 ∧
    (after (withKey (withRegs [(5#4, 0x10#8)]) 0#4) 0xE59E#16).status =
      ⟨.faulted, .keyOutOfRange, 0x200#16, 0x10#16⟩ := by decide

/-- T101, T104. -/
theorem test_sknp :
    (after (withRegs [(5#4, 0xA#8)]) 0xE5A1#16).pc = 0x204#16 ∧
    (after (withRegs [(5#4, 0xFF#8)]) 0xE5A1#16).status =
      ⟨.faulted, .keyOutOfRange, 0x200#16, 0xFF#16⟩ := by decide

/-- T105. -/
theorem test_ld_dt_read :
    readV (after { State.reset with dt := 0x3C#8 } 0xF307#16) 3#4 = 0x3C#8 := by decide

/-- T107: advanced, then rewound. -/
theorem test_key_wait :
    (after (withRegs [(1#4, 0x99#8)]) 0xF10A#16).pc = 0x200#16 ∧
    readV (after (withRegs [(1#4, 0x99#8)]) 0xF10A#16) 1#4 = 0x99#8 := by decide

/-- T108. -/
theorem test_key_taken :
    (after (withKey (withRegs [(1#4, 0x99#8)]) 7#4) 0xF10A#16).pc = 0x202#16 ∧
    readV (after (withKey (withRegs [(1#4, 0x99#8)]) 7#4) 0xF10A#16) 1#4 = 7#8 := by decide

/-- T111. -/
theorem test_ld_dt : (after (withRegs [(3#4, 60#8)]) 0xF315#16).dt = 60#8 := by decide

/-- T113. -/
theorem test_ld_st : (after (withRegs [(4#4, 2#8)]) 0xF418#16).st = 2#8 := by decide

/-- The tick table of 95_test_vectors.md 2.7. -/
theorem test_tick :
    (tick { State.reset with dt := 5#8 }).dt = 4#8 ∧ (tick { State.reset with dt := 5#8 }).st = 0#8 ∧
    (ticks 2 { State.reset with dt := 1#8, st := 1#8 }).dt = 0#8 ∧
    (ticks 255 { State.reset with dt := 255#8 }).dt = 0#8 := by decide

/-! ### Witnesses: hypotheses that can be met -/

/-- A running core at the last legal fetch, in either mode. -/
def atTop (strict : Bool) (w : Word) : State :=
  fetching { State.reset with pc := 0xFFE#16, strictDecode := strict } w

/-- The state before execution, the advance made. -/
def ready (s : State) : State := advancePc s

/-- A faulted core. -/
def faultedCore : State :=
  { State.reset with status := ⟨.faulted, .outOfBounds, 0x1000#16, 0x1000#16⟩ }

theorem witness_encode_of_decode : decodeWord 0xD12A#16 = .ok (.drwVxVyN 1#4 2#4 0xA#4) := by decide

/-- Both cases of the agreement with the opcode map. -/
theorem witness_decoder_agrees :
    decodeWord 0xFF65#16 = .ok (.ldVxMem 0xF#4) ∧
    decodeWord 0xFF66#16 = .error (.unrecognized .classF) := by decide

theorem witness_rows_disjoint :
    (⟨"CLS", 0x00E0#16, 0xFFFF#16⟩ : OpcodeRow) ∈ opcodeMap ∧
    (⟨"RET", 0x00EE#16, 0xFFFF#16⟩ : OpcodeRow) ∈ opcodeMap ∧
    (⟨"CLS", 0x00E0#16, 0xFFFF#16⟩ : OpcodeRow) ≠ ⟨"RET", 0x00EE#16, 0xFFFF#16⟩ ∧
    (⟨"CLS", 0x00E0#16, 0xFFFF#16⟩ : OpcodeRow).selects 0x00E0#16 = true := by decide

/-- The two sides of each boundary of a fetch. -/
theorem witness_fetch_clauses :
    (4096 > 4095 ∧ fetch16 [] 4096 = .error ⟨.outOfBounds, 0x1000#16⟩) ∧
    fetch16 [] 4095 = .error ⟨.outOfBounds, 0x1000#16⟩ ∧
    (4094 < 4095 ∧ fetch16 [(4094, 0x12#8), (4095, 0x34#8)] 4094 = .ok 0x1234#16) := by decide

theorem witness_step_runs :
    (atTop false 0x6A12#16).Running ∧ (atTop false 0x6A12#16).pc.toNat ≤ 4094 ∧
    decode [memGet (atTop false 0x6A12#16).mem 0xFFE, memGet (atTop false 0x6A12#16).mem 0xFFF] =
      .ok (.ldVxNn 0xA#4 0x12#8, []) := by decide

/-- Lenient and strict, at the last legal fetch. -/
theorem witness_step_unrecognized :
    ((atTop false 0x0123#16).Running ∧ (atTop false 0x0123#16).pc.toNat ≤ 4094 ∧
      unimplementedWord (fetchedWord (atTop false 0x0123#16)) = true ∧
      (atTop false 0x0123#16).strictDecode = false) ∧
    ((atTop true 0xF129#16).Running ∧ (atTop true 0xF129#16).pc.toNat ≤ 4094 ∧
      unimplementedWord (fetchedWord (atTop true 0xF129#16)) = true ∧
      (atTop true 0xF129#16).strictDecode = true) := by decide

/-- Both reported addresses of a fetch fault. -/
theorem witness_fetch_fault :
    ({ State.reset with pc := 0xFFF#16 } : State).Running ∧
    4094 < ({ State.reset with pc := 0xFFF#16 } : State).pc.toNat ∧
    ({ State.reset with pc := 0x1000#16 } : State).Running ∧
    4095 < ({ State.reset with pc := 0x1000#16 } : State).pc.toNat := by decide

theorem witness_faulted : faultedCore.status.state = .faulted ∧ ¬ faultedCore.Running := by decide

/-- A step of a running core that faults, for each of the five causes: FaultEntryWritesOnlyStatus and
FaultCausesAndInfo. -/
theorem witness_fault_out_of_bounds :
    ∃ t, ({ State.reset with pc := 0xFFF#16 } : State).Running ∧
      step { State.reset with pc := 0xFFF#16 } = .next t ∧ ¬ t.Running ∧
      t.status.cause = .outOfBounds :=
  ⟨stepped { State.reset with pc := 0xFFF#16 }, by decide, rfl, by decide, by decide⟩

theorem witness_fault_data_out_of_bounds :
    ∃ t, (fetching { State.reset with index := 0xFFE#16 } 0xF033#16).Running ∧
      step (fetching { State.reset with index := 0xFFE#16 } 0xF033#16) = .next t ∧ ¬ t.Running ∧
      t.status.cause = .outOfBounds :=
  ⟨after { State.reset with index := 0xFFE#16 } 0xF033#16, by decide, rfl, by decide, by decide⟩

theorem witness_fault_underflow :
    ∃ t, (fetching State.reset 0x00EE#16).Running ∧ step (fetching State.reset 0x00EE#16) = .next t ∧
      ¬ t.Running ∧ t.status.cause = .stackUnderflow :=
  ⟨after State.reset 0x00EE#16, by decide, rfl, by decide, by decide⟩

theorem witness_fault_overflow :
    ∃ t, step (fetching { State.reset with stack := List.replicate 16 0x202#16 } 0x2200#16) = .next t ∧
      ¬ t.Running ∧ t.status.cause = .stackOverflow :=
  ⟨after { State.reset with stack := List.replicate 16 0x202#16 } 0x2200#16, rfl, by decide, by decide⟩

theorem witness_fault_key :
    ∃ t, step (fetching (withRegs [(5#4, 16#8)]) 0xE59E#16) = .next t ∧ ¬ t.Running ∧
      t.status.cause = .keyOutOfRange :=
  ⟨after (withRegs [(5#4, 16#8)]) 0xE59E#16, rfl, by decide, by decide⟩

theorem witness_fault_unknown :
    ∃ t, step (atTop true 0xF129#16) = .next t ∧ ¬ t.Running ∧ t.status.cause = .unknownOpcode :=
  ⟨stepped (atTop true 0xF129#16), rfl, by decide, by decide⟩

/-- The invariant at the edges of its range: the highest `pc`, and a call from the last legal fetch. -/
theorem witness_invariant_step :
    (({ State.reset with pc := 0x10FE#16 } : State).Inv ∧
      ∃ t, step { State.reset with pc := 0x10FE#16 } = .next t) ∧
    ((fetching { State.reset with pc := 0xFFE#16, stack := List.replicate 15 0x1000#16 }
        0x2FFF#16).Inv ∧
      ∃ t, step (fetching { State.reset with pc := 0xFFE#16, stack := List.replicate 15 0x1000#16 }
        0x2FFF#16) = .next t) :=
  ⟨⟨by decide, stepped { State.reset with pc := 0x10FE#16 }, rfl⟩, by decide,
    after { State.reset with pc := 0xFFE#16, stack := List.replicate 15 0x1000#16 } 0x2FFF#16, rfl⟩

/-- The longest ROM that loads and the shortest that does not. -/
theorem witness_load :
    (List.replicate 3584 0xAA#8).length + 512 ≤ 4096 ∧
    4096 < (List.replicate 3585 0xAA#8).length + 512 := by
  simp only [List.length_replicate]
  decide

/-- A ROM of the greatest length loads. -/
theorem witness_load_succeeds : ∃ s, State.load (List.replicate 3584 0xAA#8) = .ok s :=
  ⟨_, if_pos test_rom_refuses_3585.2⟩

theorem witness_tick : State.reset.Running ∧ ¬ faultedCore.Running := by decide

theorem witness_host_turn : State.reset.Running := by decide

/-- The clauses of the timers: an unrecognized word and a fetch fault set none, Fx15 and Fx18 each set
one and not the other. -/
theorem witness_timers_kept :
    ((atTop false 0x0123#16).Running ∧
      (¬ ∃ x, (atTop false 0x0123#16).pc.toNat ≤ 4094 ∧
        decodeWord (fetchedWord (atTop false 0x0123#16)) = .ok (.ldDtVx x)) ∧
      ∃ t, step (atTop false 0x0123#16) = .next t) ∧
    (({ State.reset with pc := 0xFFF#16 } : State).Running ∧
      (¬ ∃ x, ({ State.reset with pc := 0xFFF#16 } : State).pc.toNat ≤ 4094 ∧
        decodeWord (fetchedWord { State.reset with pc := 0xFFF#16 }) = .ok (.ldStVx x)) ∧
      ∃ t, step { State.reset with pc := 0xFFF#16 } = .next t) :=
  ⟨⟨by decide, by decide, stepped (atTop false 0x0123#16), rfl⟩,
    by decide, by decide, stepped { State.reset with pc := 0xFFF#16 }, rfl⟩

theorem witness_timers_set :
    decodeWord (fetchedWord (atTop false 0xF415#16)) = .ok (.ldDtVx 4#4) ∧
    decodeWord (fetchedWord (atTop false 0xF418#16)) = .ok (.ldStVx 4#4) ∧
    (atTop false 0xF415#16).Running ∧ (atTop false 0xF418#16).Running ∧
    (atTop false 0xF415#16).pc.toNat ≤ 4094 ∧ (atTop false 0xF418#16).pc.toNat ≤ 4094 ∧
    (∃ t, step (atTop false 0xF415#16) = .next t) ∧ ∃ t, step (atTop false 0xF418#16) = .next t :=
  ⟨by decide, by decide, by decide, by decide, by decide, by decide,
    ⟨stepped (atTop false 0xF415#16), rfl⟩, stepped (atTop false 0xF418#16), rfl⟩

/-- The reset state with the index register set. -/
def atIndex (i : Word) : State := { State.reset with index := i }

/-- No row; the last row that fits; one row past the top. -/
theorem witness_draw_bounds :
    (0#4 = 0#4 ∧ ¬ (atIndex 0x5000#16).index.toNat + (0#4).toNat ≤ 4096) ∧
    (atIndex 0xFF1#16).index.toNat + (0xF#4).toNat ≤ 4096 ∧
    (0xF#4 ≠ 0#4 ∧ 4096 < (atIndex 0xFF2#16).index.toNat + (0xF#4).toNat) := by decide

/-- A one-row sprite whose only set bit is its last column, at column 60 and row 31, on a framebuffer. -/
def spriteAtEdge (g : PixelGrid) : State :=
  { withBytes (withRegs [(1#4, 60#8), (2#4, 31#8)]) 0 [0x01#8] with fb := g }

/-- The bit wraps to the pixel (3, 31), which is on: a collision. -/
theorem witness_draw_collision :
    (spriteAtEdge blankGrid).index.toNat + (1#4).toNat ≤ 4096 ∧
    SpriteHits (spriteAtEdge (setPixel blankGrid 3 31 true)) 1#4 2#4 1#4 3 31 ∧
    pixelAt (spriteAtEdge (setPixel blankGrid 3 31 true)).fb 3 31 = true :=
  ⟨by decide, ⟨0, 7, by decide⟩, by decide⟩

/-- No bit hits the pixel (4, 31), and on a clear framebuffer there is no collision. -/
theorem witness_draw_no_collision :
    ¬ SpriteHits (spriteAtEdge blankGrid) 1#4 2#4 1#4 4 31 ∧
    ¬ ∃ px py, px < 64 ∧ py < 32 ∧ SpriteHits (spriteAtEdge blankGrid) 1#4 2#4 1#4 px py ∧
      pixelAt (spriteAtEdge blankGrid).fb px py = true := by
  constructor
  · rintro ⟨i, j, -, hj, hx, -⟩
    have h60 : (readV (spriteAtEdge blankGrid) 1#4).toNat = 60 := by decide
    rw [h60] at hx
    omega
  · rintro ⟨px, py, -, -, -, h⟩
    simp [spriteAtEdge] at h

/-- The sprite byte is the last byte of memory. -/
theorem witness_full_sprite :
    (withBytes (atIndex 0xFFF#16) 0xFFF [0xFF#8]).index.toNat ≤ 4095 ∧
    memGet (withBytes (atIndex 0xFFF#16) 0xFFF [0xFF#8]).mem 0xFFF = 0xFF#8 := by decide

theorem witness_ret :
    (∃ below top, ({ State.reset with stack := [0x202#16] } : State).stack = below ++ [top]) ∧
    State.reset.stack = [] :=
  ⟨⟨[], 0x202#16, rfl⟩, rfl⟩

/-- One free entry, and none: CallPushesOrOverflows and CallThenReturnRestoresPc. -/
theorem witness_call :
    ({ State.reset with stack := List.replicate 15 0x202#16 } : State).stack.length < 16 ∧
    ({ State.reset with stack := List.replicate 16 0x202#16 } : State).stack.length = 16 := by decide

theorem witness_skips :
    readV State.reset 3#4 = 0#8 ∧ readV State.reset 3#4 ≠ 1#8 ∧
    readV State.reset 1#4 = readV State.reset 2#4 ∧
    readV (withRegs [(1#4, 1#8)]) 1#4 ≠ readV (withRegs [(1#4, 1#8)]) 2#4 := by decide

/-- A destination that is not VF, and a register that is neither: the clauses of the arithmetic. -/
theorem witness_other_register : (0xE#4 : Nibble) ≠ 0xF#4 ∧ (0#4 : Nibble) ≠ 0xE#4 ∧
    (0#4 : Nibble) ≠ 0xF#4 := by decide

theorem witness_font :
    State.reset.strictDecode = false ∧
    ({ State.reset with strictDecode := true } : State).strictDecode = true := by decide

/-- Memory is canonical; the last base that fits and the first that does not, for three bytes and for a
range of sixteen, and addresses outside the stored ones. -/
theorem witness_store_bounds :
    Memory.wf (atIndex 0xFFD#16).mem = true ∧ (atIndex 0xFFD#16).index.toNat ≤ 4093 ∧
    4093 < (atIndex 0xFFE#16).index.toNat ∧
    (atIndex 0xFF0#16).index.toNat + (0xF#4).toNat ≤ 4095 ∧
    4095 < (atIndex 0xFF1#16).index.toNat + (0xF#4).toNat ∧
    0xFEF < (atIndex 0xFF0#16).index.toNat ∧
    (atIndex 0xFF0#16).index.toNat + (0xF#4).toNat < 0x1000 := by decide

/-- Two neighbouring registers at the end of the range. -/
theorem witness_stored_word :
    Memory.wf (atIndex 0xFF0#16).mem = true ∧ (atIndex 0xFF0#16).index.toNat + (0xF#4).toNat ≤ 4095 ∧
    (0xF#4).toNat = (0xE#4).toNat + 1 ∧ (0xF#4).toNat ≤ (0xF#4).toNat := by decide

/-- The highest key, down and up, and the first value that is no key. -/
theorem witness_key_skips :
    (readV (withRegs [(5#4, 15#8)]) 5#4).toNat < 16 ∧ 15 < (readV (withRegs [(5#4, 16#8)]) 5#4).toNat ∧
    (withKey State.reset 0xF#4).keys[15] = true ∧ State.reset.keys[15] = false := by decide

theorem witness_key_wait :
    (∀ k : Fin 16, State.reset.keys[k] = false) ∧
    ∃ k : Fin 16, (withKey State.reset 0xF#4).keys[k] = true :=
  ⟨by decide, 15, by decide⟩

/-- An execution that does not fault: PcAfterEveryInstruction and WritersOfRegistersAndFlag, the latter's
clauses by `8124`, which sets the flag and leaves V2. -/
theorem witness_not_faulted :
    (∃ t, exec (.addVxVy 1#4 2#4) (ready State.reset) = .next t ∧ t.Running) ∧
    isDestination (.addVxVy 1#4 2#4) 2#4 = false ∧ setsFlag (.addVxVy 1#4 2#4) = true ∧
    isDestination (.ldVxNn 1#4 0#8) 0xF#4 = false ∧ setsFlag (.ldVxNn 1#4 0#8) = false :=
  ⟨⟨_, rfl, by decide⟩, by decide, by decide, by decide, by decide⟩

/-- An instruction that changes the last byte of memory. -/
theorem witness_memory_writer :
    ∃ t, exec (.ldMemVx 0#4) { withRegs [(0#4, 1#8)] with index := 0xFFF#16 } = .next t ∧
      memGet t.mem 0xFFF ≠ memGet State.reset.mem 0xFFF :=
  ⟨_, rfl, by decide⟩

/-- Each kind of state that WritersOfIndexStackTimersDisplay names is changed by some instruction. -/
theorem witness_writers :
    (∃ t, exec (.ldINnn 1#12) State.reset = .next t ∧ t.index ≠ State.reset.index) ∧
    (∃ t, exec (.callNnn 0x300#12) State.reset = .next t ∧ t.stack ≠ State.reset.stack) ∧
    (∃ t, exec (.ldDtVx 0#4) { State.reset with dt := 1#8 } = .next t ∧ t.dt ≠ 1#8) ∧
    (∃ t, exec (.ldStVx 0#4) { State.reset with st := 1#8 } = .next t ∧ t.st ≠ 1#8) ∧
    ∃ t, exec .cls { State.reset with fb := setPixel blankGrid 3 4 true } = .next t ∧
      pixelAt t.fb 3 4 ≠ pixelAt (setPixel blankGrid 3 4 true) 3 4 :=
  ⟨⟨_, rfl, by decide⟩, ⟨_, rfl, by decide⟩, ⟨_, rfl, by decide⟩, ⟨_, rfl, by decide⟩,
    _, rfl, by decide⟩

/-- An instruction that changes the status, and one that changes the diagnostic stream. -/
theorem witness_host_side :
    (∃ t, exec .ret State.reset = .next t ∧ t.status ≠ State.reset.status) ∧
    ∃ t, exec (.ldFVx 3#4) State.reset = .next t ∧ t.diag ≠ State.reset.diag :=
  ⟨⟨_, rfl, by decide⟩, _, rfl, by decide⟩

/-- Two executions that differ in the unread state. -/
theorem witness_unread :
    (∃ t, exec (.ldVxDt 3#4) State.reset = .next t) ∧
    ∃ t, exec (.ldVxDt 3#4) { State.reset with st := 9#8, status := faultedCore.status, diag := [] } =
      .next t :=
  ⟨⟨_, rfl⟩, _, rfl⟩

/-- An instruction that reads neither the snapshot nor the random byte. -/
theorem witness_no_reader :
    (∃ t, exec .cls State.reset = .next t) ∧
    (∀ x, Instr.cls ≠ .skpVx x ∧ Instr.cls ≠ .sknpVx x ∧ Instr.cls ≠ .ldVxK x) ∧
    ∀ x nn, Instr.cls ≠ .rndVxNn x nn :=
  ⟨⟨_, rfl⟩, by simp, by simp⟩

end Sys2Proof.Tests
end

/-! PROOFS. The register file, `pc` and reset (spec/10_state.md). First what an execution that raises no
fault leaves, said once for each instruction that could have raised one; then the load, the table of R20
and the rule of R16. -/

namespace Sys2Proof.Machine

/-! ### Executions that raise no fault -/

/-- The fault entry leaves no running core, so a running result is the one the effect answered. -/
theorem ok_of_next_settle {s t : State} {r : Except FaultRaise State}
    (h : (.next (settle s r) : Host.Outcome State Fault Refusal) = .next t) (ht : t.Running) :
    r = .ok t := by
  obtain rfl := Host.Outcome.next.inj h
  obtain ⟨u, hr, hu⟩ | ⟨f, -, hf⟩ := settle_cases s r
  · rw [hr, settle_ok]
  · simp [State.Running, hf] at ht

/-- A mapped computation that answers has answered before the map. -/
theorem exists_of_map_eq_ok {α β : Type} {r : Except FaultRaise α} {g : α → β} {b : β}
    (h : r.map g = .ok b) : ∃ a, r = .ok a ∧ b = g a := by
  cases r with
  | ok a => exact ⟨a, rfl, (Except.ok.inj h).symm⟩
  | error f => cases h

theorem exec_ret_running {s t : State} (h : exec .ret s = .next t) (ht : t.Running) :
    ∃ below top, s.stack = below ++ [top] ∧ t = { s with pc := top, stack := below } := by
  have hpop : popPc s = .ok t := ok_of_next_settle h ht
  obtain ⟨-, he⟩ | ⟨below, top, hs, ho⟩ := popPc_cases s
  · simp [he] at hpop
  · exact ⟨below, top, hs, Except.ok.inj (hpop.symm.trans ho)⟩

theorem exec_callNnn_running {nnn : Addr12} {s t : State} (h : exec (.callNnn nnn) s = .next t)
    (ht : t.Running) : t = { s with pc := zextAddr nnn, stack := s.stack ++ [s.pc] } := by
  obtain ⟨u, hu, rfl⟩ := exists_of_map_eq_ok (ok_of_next_settle h ht)
  rw [pushPc_eq] at hu
  split_ifs at hu
  cases hu
  rfl

theorem exec_drwVxVyN_running {x y n : Nibble} {s t : State}
    (h : exec (.drwVxVyN x y n) s = .next t) (ht : t.Running) :
    ∃ fb c, t = writeFlag { s with fb := fb } c := by
  have hdraw : drawEffect x y n s = .ok t := ok_of_next_settle h ht
  unfold drawEffect at hdraw
  split at hdraw
  · cases hdraw
  · exact ⟨_, _, (Except.ok.inj hdraw).symm⟩

theorem exec_skpVx_running {x : Nibble} {s t : State} (h : exec (.skpVx x) s = .next t)
    (ht : t.Running) :
    ∃ k, keyOperand (readV s x) = .ok k ∧ t = skipIf (keyDown s.keys k) s :=
  exists_of_map_eq_ok (ok_of_next_settle h ht)

theorem exec_sknpVx_running {x : Nibble} {s t : State} (h : exec (.sknpVx x) s = .next t)
    (ht : t.Running) :
    ∃ k, keyOperand (readV s x) = .ok k ∧ t = skipIf (!keyDown s.keys k) s :=
  exists_of_map_eq_ok (ok_of_next_settle h ht)

theorem exec_ldFVx_running {x : Nibble} {s t : State} (h : exec (.ldFVx x) s = .next t)
    (ht : t.Running) : t = { s with diag := t.diag } := by
  have hact : unrecognizedAction (encode (.ldFVx x)) s = .ok t := ok_of_next_settle h ht
  unfold unrecognizedAction at hact
  split_ifs at hact
  cases hact
  rfl

theorem storeAtIndex_ok {s t : State} {bytes : List Byte} (h : storeAtIndex s bytes = .ok t) :
    t = { s with mem := t.mem } := by
  obtain ⟨m, -, rfl⟩ := exists_of_map_eq_ok h
  rfl

theorem exec_ldBVx_running {x : Nibble} {s t : State} (h : exec (.ldBVx x) s = .next t)
    (ht : t.Running) : t = { s with mem := t.mem } :=
  storeAtIndex_ok (ok_of_next_settle h ht)

theorem exec_ldMemVx_running {x : Nibble} {s t : State} (h : exec (.ldMemVx x) s = .next t)
    (ht : t.Running) : t = { s with mem := t.mem } :=
  storeAtIndex_ok (ok_of_next_settle h ht)

theorem exec_ldVxMem_running {x : Nibble} {s t : State} (h : exec (.ldVxMem x) s = .next t)
    (ht : t.Running) :
    ∃ bytes : List Byte, bytes.length = x.toNat + 1 ∧ t = writeVFrom s 0 bytes := by
  obtain ⟨bytes, hread, rfl⟩ := exists_of_map_eq_ok (ok_of_next_settle h ht)
  rw [memReadBytes_eq] at hread
  split_ifs at hread
  cases hread
  exact ⟨_, by simp [rangeCount], rfl⟩

/-! ### Reset with a ROM (R35, R48) -/

theorem load_of_fits {rom : List Byte} (h : rom.length + 512 ≤ 4096) :
    State.load rom = .ok { State.reset with mem := romCells 512 rom } :=
  if_pos (decide_eq_true h)

theorem load_of_too_large {rom : List Byte} (h : 4096 < rom.length + 512) :
    State.load rom = .error .tooLarge :=
  if_neg (by rw [romFits, decide_eq_true_eq]; exact h.not_ge)

@[simp] theorem readV_reset (r : Nibble) : readV State.reset r = 0#8 := by
  simp [readV, State.reset]

@[simp] theorem reset_keys (k : Fin 16) : State.reset.keys[k] = false := by
  simp [State.reset]

/-- Settles O17: the loaded state is the reset state with the ROM's cells for memory. -/
theorem loadLaysRomAndResetsState : Obligations.LoadLaysRomAndResetsState := by
  intro rom
  refine ⟨fun hfits => ⟨_, load_of_fits hfits, ?mem, readV_reset, rfl, rfl, rfl, rfl, rfl,
    pixelAt_blankGrid, reset_keys, rfl, rfl⟩, load_of_too_large⟩
  case mem => exact fun a => memGet_romCells rom 512 a (by omega)

/-! ### `pc` after every instruction (R20) -/

theorem zextAddr_eq_ofNat (nnn : Addr12) : zextAddr nnn = BitVec.ofNat 16 nnn.toNat :=
  (BitVec.ofNat_toNat 16 nnn).symm

theorem zextAddr_add_zextByte (nnn : Addr12) (b : Byte) :
    zextAddr nnn + zextByte b = BitVec.ofNat 16 (nnn.toNat + b.toNat) := by
  rw [BitVec.ofNat_add, BitVec.ofNat_toNat, BitVec.ofNat_toNat, zextAddr, zextByte]

@[simp] theorem skipIf_pc (c : Bool) (s : State) :
    (skipIf c s).pc = if c then s.pc + 2#16 else s.pc := by
  rw [skipIf_eq]

@[simp] theorem skipIf_v (c : Bool) (s : State) : (skipIf c s).v = s.v := by
  rw [skipIf_eq]

/-- A checked key index is the register's value, and the snapshot has a key there. -/
theorem keys_at_of_keyOperand {b : Byte} {k : Nibble} (h : keyOperand b = .ok k) (K : Keypad) :
    K[b.toNat]? = some (keyDown K k) := by
  rw [keyOperand_eq] at h
  split_ifs at h with hb
  cases h
  have hk : (b.setWidth 4).toNat = b.toNat := by simp [Nat.mod_eq_of_lt hb]
  simp [keyDown, hk, hb]

theorem exists_key_down_iff (K : Keypad) : (∃ k : Fin 16, K[k] = true) ↔ keySelect K ≠ none := by
  rw [Ne, keySelect_none, not_forall]
  constructor
  · rintro ⟨k, hk⟩
    exact ⟨BitVec.ofFin k, by simpa [keyDown] using hk⟩
  · rintro ⟨k, hk⟩
    exact ⟨k.toFin, by simpa [keyDown] using hk⟩

/-- The key wait goes back to its own address exactly while no key is down (R111). -/
theorem keyWait_pc (x : Nibble) (s : State) :
    (keyWait x s).pc = if ∃ k : Fin 16, s.keys[k] = true then s.pc else s.pc - 2#16 := by
  simp only [keyWait, exists_key_down_iff]
  cases keySelect s.keys <;> simp

/-- Settles O50: the skips, the key wait and the jumps by their own lemmas, the instructions that could
fault by what a running result of theirs is; the other meanings do not name `pc`. -/
theorem pcAfterEveryInstruction : Obligations.PcAfterEveryInstruction := by
  intro i s t h ht
  match i with
  | .ret =>
    obtain ⟨below, top, hstack, rfl⟩ := exec_ret_running h ht
    simp [pcAfter, hstack]
  | .jpNnn nnn => cases h; exact zextAddr_eq_ofNat nnn
  | .callNnn nnn => rw [exec_callNnn_running h ht]; exact zextAddr_eq_ofNat nnn
  | .jpV0Nnn nnn => cases h; exact zextAddr_add_zextByte nnn _
  | .seVxNn _ _ | .sneVxNn _ _ | .seVxVy _ _ | .sneVxVy _ _ => cases h; simp [pcAfter]
  | .skpVx _ =>
    obtain ⟨k, hk, rfl⟩ := exec_skpVx_running h ht
    simp [pcAfter, keys_at_of_keyOperand hk]
  | .sknpVx _ =>
    obtain ⟨k, hk, rfl⟩ := exec_sknpVx_running h ht
    cases hdown : keyDown s.keys k <;> simp [pcAfter, keys_at_of_keyOperand hk, hdown]
  | .ldVxK x => cases h; exact keyWait_pc x s
  | .drwVxVyN _ _ _ => obtain ⟨_, _, rfl⟩ := exec_drwVxVyN_running h ht; rfl
  | .ldFVx _ => rw [exec_ldFVx_running h ht]; rfl
  | .ldBVx _ => rw [exec_ldBVx_running h ht]; rfl
  | .ldMemVx _ => rw [exec_ldMemVx_running h ht]; rfl
  | .ldVxMem _ =>
    obtain ⟨bytes, -, rfl⟩ := exec_ldVxMem_running h ht
    rw [writeVFrom_only s 0 bytes]; rfl
  | .cls | .ldVxNn _ _ | .addVxNn _ _ | .ldVxVy _ _ | .orVxVy _ _ | .andVxVy _ _ | .xorVxVy _ _
  | .addVxVy _ _ | .subVxVy _ _ | .shrVxVy _ _ | .subnVxVy _ _ | .shlVxVy _ _ | .ldINnn _
  | .rndVxNn _ _ | .ldVxDt _ | .ldDtVx _ | .ldStVx _ | .addIVx _ => cases h; rfl

/-! ### Who writes a register or the flag (R16, R18) -/

/-- Every register that is no ordinary destination of `i` is the same in both states. -/
def KeepsNonDestinations (i : Instr) (s t : State) : Prop :=
  ∀ r, isDestination i r = false → readV t r = readV s r

/-- The rule of R16 for one execution of `i` (`Obligations.WritersOfRegistersAndFlag` without its
quantifiers). -/
def FollowsRegisterRule (i : Instr) (s t : State) : Prop :=
  (∀ r, isDestination i r = false → (r = 0xF#4 → setsFlag i = false) → readV t r = readV s r) ∧
  (setsFlag i = true → readV t 0xF#4 = 0#8 ∨ readV t 0xF#4 = 1#8)

theorem keepsNonDestinations_of_v_eq {i : Instr} {s t : State} (h : t.v = s.v) :
    KeepsNonDestinations i s t :=
  fun r _ => by simp only [readV, h]

theorem keepsNonDestinations_writeV {i : Instr} {x : Nibble} (hx : isDestination i x = true)
    (s : State) (b : Byte) : KeepsNonDestinations i s (writeV s x b) := by
  intro r hr
  have hne : r ≠ x := by
    rintro rfl
    simp [hx] at hr
  rw [readV_writeV, if_neg hne]

theorem keepsNonDestinations_writeVFrom {x : Nibble} {bytes : List Byte}
    (hlen : bytes.length = x.toNat + 1) (s : State) :
    KeepsNonDestinations (.ldVxMem x) s (writeVFrom s 0 bytes) := by
  intro r hr
  have hx := x.isLt
  have hpast : bytes.length ≤ r.toNat := by
    simpa [hlen, isDestination, Nat.succ_le_iff] using hr
  rw [readV_writeVFrom s 0 bytes (by omega)]
  simp [hpast]

theorem keepsNonDestinations_keyWait (x : Nibble) (s : State) :
    KeepsNonDestinations (.ldVxK x) s (keyWait x s) := by
  unfold keyWait
  split
  · exact keepsNonDestinations_of_v_eq rfl
  · exact keepsNonDestinations_writeV (by simp [isDestination]) s _

/-- An instruction that sets no flag follows the rule when it writes its destinations only. -/
theorem followsRegisterRule_of_no_flag {i : Instr} {s t : State} (hi : setsFlag i = false)
    (h : KeepsNonDestinations i s t) : FollowsRegisterRule i s t :=
  ⟨fun r hr _ => h r hr, fun hf => by simp [hi] at hf⟩

theorem followsRegisterRule_of_v_eq {i : Instr} {s t : State} (hi : setsFlag i = false)
    (h : t.v = s.v) : FollowsRegisterRule i s t :=
  followsRegisterRule_of_no_flag hi (keepsNonDestinations_of_v_eq h)

/-- A flag-setting instruction follows the rule when it writes its destinations and then the flag. -/
theorem followsRegisterRule_writeFlag {i : Instr} {s u : State} (hi : setsFlag i = true)
    (h : KeepsNonDestinations i s u) (c : Bool) : FollowsRegisterRule i s (writeFlag u c) := by
  refine ⟨fun r hr hv => ?_, fun _ => ?_⟩
  · have hne : r ≠ vfIndex := fun e => by simp [hv e] at hi
    rw [readV_writeFlag, if_neg hne, h r hr]
  · rw [readV_writeFlag]
    cases c <;> simp [vfIndex]

/-- Settles O51: an instruction leaves the registers as they were, writes its Vx (the range of `Fx65`, the
key of `Fx0A`), or writes the flag last. -/
theorem writersOfRegistersAndFlag : Obligations.WritersOfRegistersAndFlag := by
  intro i s t h ht
  change FollowsRegisterRule i s t
  match i with
  | .ldVxNn x _ | .addVxNn x _ | .ldVxVy x _ | .orVxVy x _ | .andVxVy x _ | .xorVxVy x _
  | .rndVxNn x _ | .ldVxDt x =>
    cases h
    exact followsRegisterRule_of_no_flag rfl
      (keepsNonDestinations_writeV (by simp [isDestination]) s _)
  | .addVxVy x _ | .subVxVy x _ | .shrVxVy x _ | .subnVxVy x _ | .shlVxVy x _ =>
    cases h
    exact followsRegisterRule_writeFlag rfl
      (keepsNonDestinations_writeV (by simp [isDestination]) s _) _
  | .addIVx _ =>
    cases h
    exact followsRegisterRule_writeFlag rfl (keepsNonDestinations_of_v_eq rfl) _
  | .drwVxVyN _ _ _ =>
    obtain ⟨_, _, rfl⟩ := exec_drwVxVyN_running h ht
    exact followsRegisterRule_writeFlag rfl (keepsNonDestinations_of_v_eq rfl) _
  | .ldVxK x =>
    cases h
    exact followsRegisterRule_of_no_flag rfl (keepsNonDestinations_keyWait x s)
  | .ldVxMem _ =>
    obtain ⟨bytes, hlen, rfl⟩ := exec_ldVxMem_running h ht
    exact followsRegisterRule_of_no_flag rfl (keepsNonDestinations_writeVFrom hlen s)
  | .ret =>
    obtain ⟨_, _, -, rfl⟩ := exec_ret_running h ht
    exact followsRegisterRule_of_v_eq rfl rfl
  | .seVxNn _ _ | .sneVxNn _ _ | .seVxVy _ _ | .sneVxVy _ _ =>
    cases h
    exact followsRegisterRule_of_v_eq rfl (skipIf_v _ s)
  | .skpVx _ =>
    obtain ⟨_, -, rfl⟩ := exec_skpVx_running h ht
    exact followsRegisterRule_of_v_eq rfl (skipIf_v _ s)
  | .sknpVx _ =>
    obtain ⟨_, -, rfl⟩ := exec_sknpVx_running h ht
    exact followsRegisterRule_of_v_eq rfl (skipIf_v _ s)
  | .callNnn _ => exact followsRegisterRule_of_v_eq rfl (by rw [exec_callNnn_running h ht])
  | .ldFVx _ => exact followsRegisterRule_of_v_eq rfl (by rw [exec_ldFVx_running h ht])
  | .ldBVx _ => exact followsRegisterRule_of_v_eq rfl (by rw [exec_ldBVx_running h ht])
  | .ldMemVx _ => exact followsRegisterRule_of_v_eq rfl (by rw [exec_ldMemVx_running h ht])
  | .cls | .jpNnn _ | .ldINnn _ | .jpV0Nnn _ | .ldDtVx _ | .ldStVx _ =>
    cases h
    exact followsRegisterRule_of_v_eq rfl rfl

end Sys2Proof.Machine

/-! PROOFS. The memory (spec/20_memory.md): the value of a fetched word, and the fetch. -/

namespace Sys2Proof.Machine

/-- The first byte of a pair weighs 256 (R40, R55). -/
theorem joinBytes_toNat (hi lo : Byte) : (joinBytes hi lo).toNat = hi.toNat * 256 + lo.toNat := by
  rw [joinBytes, BitVec.toNat_append, ← Nat.shiftLeft_add_eq_or_of_lt lo.isLt, Nat.shiftLeft_eq]

theorem fetch16_ok {addr : Nat} (m : List Host.Cell) (h : addr ≤ 4094) :
    fetch16 m addr = .ok (joinBytes (memGet m addr) (memGet m (addr + 1))) := by
  rw [fetch16_eq, if_pos h]

theorem fetch16_error {addr : Nat} (m : List Host.Cell) (h : 4094 < addr) :
    fetch16 m addr = .error (outOfBoundsAt (max addr 4096)) := by
  rw [fetch16_eq, if_neg (Nat.not_le.mpr h)]

/-- Settles O8: past 4094 the fault names the first of the two addresses that is out of range, the larger
of `addr` and 4096; up to 4094 the word is its two bytes joined. -/
theorem fetchIsBigEndianAndChecked : Obligations.FetchIsBigEndianAndChecked := by
  intro m addr
  refine ⟨fun above => ?_, fun last => ?_, fun below => ?_⟩
  · have hfirst : max addr 4096 = addr := Nat.max_eq_left above
    rw [fetch16_error m (by omega), hfirst, outOfBoundsAt]
  · subst last
    exact fetch16_error m (by decide)
  · exact ⟨_, fetch16_ok m (Nat.le_of_lt_succ below), joinBytes_toNat _ _⟩

end Sys2Proof.Machine

/-! PROOFS. The encoding (spec/30_encoding.md): the fields of a word as numbers, the rows of the opcode map
against each other, and the words that select none, class by class. -/

namespace Sys2Proof.Machine

/-! ### Fields (R55) -/

/-- The values of the six bit ranges of a word. -/
theorem fieldsOf_toNat (w : Word) :
    (fieldsOf w).op.toNat = w.toNat / 4096 ∧
    (fieldsOf w).x.toNat = w.toNat / 256 % 16 ∧ (fieldsOf w).y.toNat = w.toNat / 16 % 16 ∧
    (fieldsOf w).n.toNat = w.toNat % 16 ∧ (fieldsOf w).nn.toNat = w.toNat % 256 ∧
    (fieldsOf w).nnn.toNat = w.toNat % 4096 := by
  have hop : w.toNat / 4096 < 16 := Nat.div_lt_of_lt_mul w.isLt
  simp [fieldsOf, Nat.shiftRight_eq_div_pow, Nat.mod_eq_of_lt hop]

/-- Settles O2: the fields as numbers, and the word of a pair of bytes as a number. -/
theorem fieldsAreFixedBitRanges : Obligations.FieldsAreFixedBitRanges :=
  ⟨fieldsOf_toNat, fun hi lo _ => ⟨joinBytes hi lo, joinBytes_toNat hi lo, rfl⟩⟩

/-! ### The rows of the opcode map (R60) -/

/-- Two rows differ in a bit that both masks cover. -/
abbrev DifferInCommonBit (r₁ r₂ : OpcodeRow) : Prop :=
  r₁.pattern &&& (r₁.mask &&& r₂.mask) ≠ r₂.pattern &&& (r₁.mask &&& r₂.mask)

theorem differInCommonBit_symm : Std.Symm DifferInCommonBit where
  symm r₁ r₂ h := by
    rw [DifferInCommonBit, BitVec.and_comm r₂.mask]
    exact h.symm

theorem opcodeMap_pairwise_differ : opcodeMap.Pairwise DifferInCommonBit := by decide

/-- A word that selects a row has the bits of its pattern wherever the mask covers them. -/
theorem pattern_and_of_selects {r : OpcodeRow} {w : Word} (h : r.selects w = true) (m : Word) :
    r.pattern &&& (r.mask &&& m) = w &&& (r.mask &&& m) := by
  have hp : w &&& r.mask = r.pattern := eq_of_beq h
  rw [← hp, BitVec.and_assoc, ← BitVec.and_assoc r.mask, BitVec.and_self]

/-- Two rows that one word selects agree with the word, so with each other, in the common bits. -/
theorem not_differ_of_selects {r₁ r₂ : OpcodeRow} {w : Word} (h₁ : r₁.selects w = true)
    (h₂ : r₂.selects w = true) : ¬ DifferInCommonBit r₁ r₂ := by
  rw [not_not, pattern_and_of_selects h₁, BitVec.and_comm r₁.mask, pattern_and_of_selects h₂]

/-- Settles O6: each unordered pair of rows is compared once, and a common word excludes a difference. -/
theorem opcodeRowsAreDisjoint : Obligations.OpcodeRowsAreDisjoint := by
  have hdiffer : ∀ r₁ ∈ opcodeMap, ∀ r₂ ∈ opcodeMap, r₁ ≠ r₂ → DifferInCommonBit r₁ r₂ :=
    haveI := differInCommonBit_symm
    fun _ m₁ _ m₂ => opcodeMap_pairwise_differ.forall m₁ m₂
  refine ⟨hdiffer, fun w r₁ m₁ r₂ m₂ h₁ h₂ => ?_⟩
  by_contra hne
  exact not_differ_of_selects h₁ h₂ (hdiffer r₁ m₁ r₂ m₂ hne)

/-! ### The unrecognized space (R61, R62)

Each class rejects the values of its secondary opcode that it does not list: in every branch of the class's
match, the value matched decides both sides. -/

/-- A word is its primary opcode and its low twelve bits side by side. -/
theorem eq_op_append_iff {w : Word} {o : Nibble} {nnn : Addr12} :
    w = o ++ nnn ↔ (fieldsOf w).op = o ∧ (fieldsOf w).nnn = nnn := by
  constructor
  · rintro rfl
    rw [fieldsOf_addr]
    exact ⟨rfl, rfl⟩
  · rintro ⟨rfl, rfl⟩
    simp only [fieldsOf]
    ext i hi
    grind

theorem decodeClass0_rejects_iff (f : Fields) :
    (∃ e, decodeClass0 f = .error e) ↔ f.nnn ≠ 0x0E0#12 ∧ f.nnn ≠ 0x0EE#12 := by
  unfold decodeClass0
  split <;> simp_all

theorem decodeClass5_rejects_iff (f : Fields) :
    (∃ e, decodeClass5 f = .error e) ↔ f.n ≠ 0x0#4 := by
  unfold decodeClass5
  split <;> simp_all

theorem decodeClass9_rejects_iff (f : Fields) :
    (∃ e, decodeClass9 f = .error e) ↔ f.n ≠ 0x0#4 := by
  unfold decodeClass9
  split <;> simp_all

/-- Stated with the nibbles class 0x8 uses; `nibble_unused_in_class8` turns them into those R61 lists. -/
theorem decodeClass8_rejects_iff (f : Fields) :
    (∃ e, decodeClass8 f = .error e) ↔
      f.n ∉ [0x0#4, 0x1#4, 0x2#4, 0x3#4, 0x4#4, 0x5#4, 0x6#4, 0x7#4, 0xE#4] := by
  unfold decodeClass8
  split <;> simp_all

theorem decodeClassE_rejects_iff (f : Fields) :
    (∃ e, decodeClassE f = .error e) ↔ f.nn ∉ [0x9E#8, 0xA1#8] := by
  unfold decodeClassE
  split <;> simp_all

theorem decodeClassF_rejects_iff (f : Fields) :
    (∃ e, decodeClassF f = .error e) ↔
      f.nn ∉ [0x07#8, 0x0A#8, 0x15#8, 0x18#8, 0x1E#8, 0x29#8, 0x33#8, 0x55#8, 0x65#8] := by
  unfold decodeClassF
  split <;> simp_all

/-- The low nibbles that class 0x8 does not use. -/
theorem nibble_unused_in_class8 (n : Nibble) :
    n ∉ [0x0#4, 0x1#4, 0x2#4, 0x3#4, 0x4#4, 0x5#4, 0x6#4, 0x7#4, 0xE#4] ↔
      n ∈ [0x8#4, 0x9#4, 0xA#4, 0xB#4, 0xC#4, 0xD#4, 0xF#4] := by
  revert n
  decide

/-- Dispatch adds no rejection of its own (R58): a word is rejected in the class of its primary opcode. -/
theorem decodeFields_rejects_iff (f : Fields) :
    (∃ e, decodeFields f = .error e) ↔
      (f.op = 0x0#4 ∧ ∃ e, decodeClass0 f = .error e) ∨
      (f.op = 0x5#4 ∧ ∃ e, decodeClass5 f = .error e) ∨
      (f.op = 0x9#4 ∧ ∃ e, decodeClass9 f = .error e) ∨
      (f.op = 0x8#4 ∧ ∃ e, decodeClass8 f = .error e) ∨
      (f.op = 0xE#4 ∧ ∃ e, decodeClassE f = .error e) ∨
      (f.op = 0xF#4 ∧ ∃ e, decodeClassF f = .error e) := by
  unfold decodeFields
  split
  case h_16 =>
    have hop : f.op = 0xF#4 := by
      simp only [imp_false] at *
      bv_omega
    simp [hop]
  all_goals simp [*]

/-- In class 0x0, selection by `nnn` is selection by the whole word (R58). -/
theorem class0_unused_iff {w : Word} (hop : (fieldsOf w).op = 0x0#4) :
    (fieldsOf w).nnn ≠ 0x0E0#12 ∧ (fieldsOf w).nnn ≠ 0x0EE#12 ↔
      w ≠ 0x00E0#16 ∧ w ≠ 0x00EE#16 := by
  have hcls : w = 0x00E0#16 ↔ _ := eq_op_append_iff (o := 0x0#4) (nnn := 0x0E0#12)
  have hret : w = 0x00EE#16 ↔ _ := eq_op_append_iff (o := 0x0#4) (nnn := 0x0EE#12)
  simp [hcls, hret, hop]

/-- Settles O7: the decoder rejects a word in the class its primary opcode selects, and each class by its
own list. -/
theorem unrecognizedSpaceIsExact : Obligations.UnrecognizedSpaceIsExact := by
  intro w
  rw [decodeWord, decodeFields_rejects_iff, decodeClass0_rejects_iff, decodeClass5_rejects_iff,
    decodeClass9_rejects_iff, decodeClass8_rejects_iff, decodeClassE_rejects_iff,
    decodeClassF_rejects_iff, nibble_unused_in_class8, and_congr_right class0_unused_iff]

end Sys2Proof.Machine

/-! PROOFS. The display (spec/41_display.md): the sprite that `Dxyn` reads, the pixels its bits land on, and
the two outcomes of the instruction; then its clauses, and a full sprite byte. -/

namespace Sys2Proof.Machine

/-! ### Clearing (R76) -/

/-- Settles O21: the new framebuffer is the blank grid. -/
theorem clearTurnsEveryPixelOff : Obligations.ClearTurnsEveryPixelOff :=
  ⟨rfl, fun _ => ⟨_, rfl, rfl, pixelAt_blankGrid⟩⟩

/-! ### Pixels hit (R77) -/

@[simp] theorem pixelAt_mod (g : PixelGrid) (px py : Nat) :
    pixelAt g (px % 64) (py % 32) = pixelAt g px py := by
  simp [pixelAt]

/-- The rows that `Dxyn` reads: `n` bytes from `I` upward. -/
def spriteRows (s : State) (n : Nibble) : List Byte :=
  (List.range n.toNat).map fun i => memGet s.mem (s.index.toNat + i)

@[simp] theorem spriteRows_length (s : State) (n : Nibble) : (spriteRows s n).length = n.toNat := by
  simp [spriteRows]

@[simp] theorem spriteRows_getElem (s : State) (n : Nibble) (i : Nat)
    (h : i < (spriteRows s n).length) :
    (spriteRows s n)[i] = memGet s.mem (s.index.toNat + i) := by
  simp [spriteRows]

/-- The framebuffer that `Dxyn` leaves, and the collision it records. -/
def drawnSprite (s : State) (x y n : Nibble) : PixelGrid × Bool :=
  drawSprite s.fb (readV s x).toNat (readV s y).toNat (spriteRows s n)

/-- A set bit of the sprite lands on a pixel that is on. -/
def SpriteCollides (s : State) (x y n : Nibble) : Prop :=
  ∃ px py, px < 64 ∧ py < 32 ∧ SpriteHits s x y n px py ∧ pixelAt s.fb px py = true

/-- The drawing's own notion of a hit, on the rows `Dxyn` reads, is the spec's at the reduced
coordinates. -/
theorem rowHits_spriteRows_iff (s : State) (x y n : Nibble) (px py : Nat) :
    RowHits (readV s x).toNat (readV s y).toNat (spriteRows s n) px py ↔
      SpriteHits s x y n (px % 64) (py % 32) := by
  constructor
  · rintro ⟨i, j, hi, hj, hbit, hx, hy⟩
    exact ⟨i, j, by simpa using hi, hj, hx.symm, hy.symm, by simpa using hbit⟩
  · rintro ⟨i, j, hi, hj, hx, hy, hbit⟩
    exact ⟨i, j, by simpa using hi, hj, by simpa using hbit, hx.symm, hy.symm⟩

open Classical in
theorem pixelAt_drawnSprite (s : State) (x y n : Nibble) (px py : Nat) :
    pixelAt (drawnSprite s x y n).1 px py =
      (pixelAt s.fb px py ^^ decide (SpriteHits s x y n (px % 64) (py % 32))) := by
  obtain ⟨hpixel, -⟩ := drawRows_spec (readV s x).toNat (spriteRows s n) (readV s y).toNat
    (by simpa using n.isLt) (s.fb, false)
  rw [drawnSprite, drawSprite, hpixel, decide_eq_decide.2 (rowHits_spriteRows_iff s x y n px py)]

theorem pixelAt_drawnSprite_of_hit {s : State} {x y n : Nibble} {px py : Nat}
    (h : SpriteHits s x y n (px % 64) (py % 32)) :
    pixelAt (drawnSprite s x y n).1 px py = !pixelAt s.fb px py := by
  simp [pixelAt_drawnSprite, h]

theorem pixelAt_drawnSprite_of_not_hit {s : State} {x y n : Nibble} {px py : Nat}
    (h : ¬ SpriteHits s x y n (px % 64) (py % 32)) :
    pixelAt (drawnSprite s x y n).1 px py = pixelAt s.fb px py := by
  simp [pixelAt_drawnSprite, h]

theorem drawnSprite_collision_iff (s : State) (x y n : Nibble) :
    (drawnSprite s x y n).2 = true ↔ SpriteCollides s x y n := by
  obtain ⟨-, hflag⟩ := drawRows_spec (readV s x).toNat (spriteRows s n) (readV s y).toNat
    (by simpa using n.isLt) (s.fb, false)
  simp only [drawnSprite, drawSprite, hflag, Bool.false_eq_true, false_or, rowHits_spriteRows_iff]
  constructor
  · rintro ⟨px, py, hhit, hon⟩
    exact ⟨px % 64, py % 32, Nat.mod_lt _ (by decide), Nat.mod_lt _ (by decide), hhit, by simpa⟩
  · rintro ⟨px, py, hpx, hpy, hhit, hon⟩
    exact ⟨px, py, by rwa [Nat.mod_eq_of_lt hpx, Nat.mod_eq_of_lt hpy], hon⟩

/-! ### The two outcomes of `Dxyn` -/

theorem decodeWord_drwVxVyN (x y n : Nibble) :
    decodeWord (0xD#4 ++ x ++ y ++ n) = .ok (.drwVxVyN x y n) := by
  rw [decodeWord, fieldsOf_regReg]
  rfl

/-- The state after a sprite that fits is drawn. -/
def afterDraw (s : State) (x y n : Nibble) : State :=
  writeFlag { s with fb := (drawnSprite s x y n).1 } (drawnSprite s x y n).2

theorem exec_drwVxVyN_of_fits {x y n : Nibble} {s : State}
    (h : n = 0#4 ∨ s.index.toNat + n.toNat ≤ 4096) :
    exec (.drwVxVyN x y n) s = .next (afterDraw s x y n) := by
  have hfits : n.toNat = 0 ∨ baseAddr s + n.toNat ≤ 4096 := h.imp_left (congrArg BitVec.toNat)
  have hdraw : drawEffect x y n s = .ok (afterDraw s x y n) := by
    rw [drawEffect, memReadBytes_eq, if_pos hfits]
    rfl
  rw [exec, execDrwVxVyN, hdraw, settle_ok]

theorem exec_drwVxVyN_of_outOfBounds {x y n : Nibble} {s : State} (hn : n ≠ 0#4)
    (h : 4096 < s.index.toNat + n.toNat) :
    exec (.drwVxVyN x y n) s = .next (enterFault (s.pc - 2#16)
      (outOfBoundsAt (max s.index.toNat 4096)) s) := by
  have hout : ¬ (n.toNat = 0 ∨ baseAddr s + n.toNat ≤ 4096) :=
    not_or.2 ⟨fun h0 => hn (BitVec.eq_of_toNat_eq h0), h.not_ge⟩
  have hdraw : drawEffect x y n s = .error (outOfBoundsAt (max (baseAddr s) 4096)) := by
    rw [drawEffect, memReadBytes_eq, if_neg hout]
  rw [exec, execDrwVxVyN, hdraw, settle_error, baseAddr]

theorem readV_afterDraw_of_ne {r : Nibble} (h : r ≠ 0xF#4) (s : State) (x y n : Nibble) :
    readV (afterDraw s x y n) r = readV s r :=
  (readV_writeFlag _ r _).trans (if_neg h)

theorem readV_afterDraw_flag (s : State) (x y n : Nibble) :
    readV (afterDraw s x y n) 0xF#4 = flagByte (drawnSprite s x y n).2 :=
  readV_writeFlag _ vfIndex _

theorem flag_afterDraw_of_collides {s : State} {x y n : Nibble} (h : SpriteCollides s x y n) :
    readV (afterDraw s x y n) 0xF#4 = 1#8 := by
  rw [readV_afterDraw_flag, (drawnSprite_collision_iff s x y n).2 h, flagByte_true]

theorem flag_afterDraw_of_not_collides {s : State} {x y n : Nibble} (h : ¬ SpriteCollides s x y n) :
    readV (afterDraw s x y n) 0xF#4 = 0#8 := by
  rw [← drawnSprite_collision_iff, Bool.not_eq_true] at h
  rw [readV_afterDraw_flag, h, flagByte_false]

/-- Settles O22: when the rows fit, `afterDraw` clause by clause; else the fault entry. -/
theorem drawXorsSpriteAndSetsCollision : Obligations.DrawXorsSpriteAndSetsCollision := by
  intro x y n s
  refine ⟨decodeWord_drwVxVyN x y n, fun hfits => ⟨_, exec_drwVxVyN_of_fits hfits, rfl, ?pixels,
    fun r hr => readV_afterDraw_of_ne hr s x y n, flag_afterDraw_of_collides,
    flag_afterDraw_of_not_collides⟩, fun hn hout => exec_drwVxVyN_of_outOfBounds hn hout⟩
  case pixels =>
    intro px py hpx hpy
    have hmod : SpriteHits s x y n (px % 64) (py % 32) ↔ SpriteHits s x y n px py := by
      rw [Nat.mod_eq_of_lt hpx, Nat.mod_eq_of_lt hpy]
    exact ⟨fun hhit => pixelAt_drawnSprite_of_hit (hmod.2 hhit),
      fun hmiss => pixelAt_drawnSprite_of_not_hit (hmod.not.2 hmiss)⟩

/-! ### A full sprite byte (R78) -/

theorem flagByte_eq_one_iff (c : Bool) : flagByte c = 1#8 ↔ c = true := by
  cases c <;> decide

theorem flagByte_eq_zero_or_one (c : Bool) : flagByte c = 0#8 ∨ flagByte c = 1#8 := by
  cases c <;> decide

/-- One row with every bit set hits its eight pixels, and no others. -/
theorem spriteHits_full_byte_iff {s : State} (h : memGet s.mem s.index.toNat = 0xFF#8) (x y : Nibble)
    (px py : Nat) :
    SpriteHits s x y 1#4 px py ↔
      ∃ j, j < 8 ∧ px = ((readV s x).toNat + j) % 64 ∧ py = (readV s y).toNat % 32 := by
  have hbits : ∀ j < 8, (0xFF#8).getLsbD (7 - j) = true := by decide
  constructor
  · rintro ⟨i, j, hi, hj, hx, hy, -⟩
    obtain rfl : i = 0 := Nat.lt_one_iff.1 hi
    exact ⟨j, hj, hx, hy⟩
  · rintro ⟨j, hj, hx, hy⟩
    exact ⟨0, j, by decide, hj, hx, hy, by rw [Nat.add_zero, h]; exact hbits j hj⟩

theorem spriteCollides_full_byte_iff {s : State} (h : memGet s.mem s.index.toNat = 0xFF#8)
    (x y : Nibble) :
    SpriteCollides s x y 1#4 ↔
      ∃ j, j < 8 ∧ pixelAt s.fb ((readV s x).toNat + j) (readV s y).toNat = true := by
  simp only [SpriteCollides, spriteHits_full_byte_iff h]
  constructor
  · rintro ⟨_, _, -, -, ⟨j, hj, rfl, rfl⟩, hon⟩
    exact ⟨j, hj, by simpa using hon⟩
  · rintro ⟨j, hj, hon⟩
    exact ⟨_, _, Nat.mod_lt _ (by decide), Nat.mod_lt _ (by decide), ⟨j, hj, rfl, rfl⟩, by simpa⟩

/-- Settles O23: the row fits since `I` is an address, and the eight pixels are those it hits. -/
theorem fullSpriteByteFlipsEightPixels : Obligations.FullSpriteByteFlipsEightPixels := by
  intro x y s hindex hfull
  have hfits : s.index.toNat + (1#4).toNat ≤ 4096 := Nat.succ_le_succ hindex
  refine ⟨_, exec_drwVxVyN_of_fits (.inr hfits), fun j hj => ?flipped, ?collision, ?bit⟩
  case flipped =>
    exact pixelAt_drawnSprite_of_hit ((spriteHits_full_byte_iff hfull x y _ _).2 ⟨j, hj, rfl, rfl⟩)
  case collision =>
    rw [readV_afterDraw_flag, flagByte_eq_one_iff, drawnSprite_collision_iff,
      spriteCollides_full_byte_iff hfull]
  case bit =>
    rw [readV_afterDraw_flag]
    exact flagByte_eq_zero_or_one _

end Sys2Proof.Machine

/-! PROOFS. Control flow (spec/42_control_flow.md): the words of its instructions, the two outcomes of a return
and of a call, the targets of the jumps, and the skips; then the clauses. -/

namespace Sys2Proof.Machine

/-! ### Return (R79) -/

theorem exec_ret_of_nonempty {s : State} {below : List Word} {top : Word}
    (h : s.stack = below ++ [top]) :
    exec .ret s = .next { s with pc := top, stack := below } := by
  rw [exec, execRet, popPc_concat h, settle_ok]

theorem exec_ret_of_empty {s : State} (h : s.stack = []) :
    exec .ret s = .next (enterFault (s.pc - 2#16) ⟨.stackUnderflow, 0#16⟩ s) := by
  rw [exec, execRet, popPc_nil h, settle_error]

/-- Settles O24: the two outcomes of the pop. -/
theorem returnPopsOrUnderflows : Obligations.ReturnPopsOrUnderflows :=
  ⟨rfl, fun _ => ⟨fun _ _ => exec_ret_of_nonempty, exec_ret_of_empty⟩⟩

/-! ### Jumps and call (R80, R81, R86) -/

theorem decodeWord_jpNnn (nnn : Addr12) : decodeWord (0x1#4 ++ nnn) = .ok (.jpNnn nnn) := by
  rw [decodeWord, fieldsOf_addr]
  rfl

theorem decodeWord_callNnn (nnn : Addr12) : decodeWord (0x2#4 ++ nnn) = .ok (.callNnn nnn) := by
  rw [decodeWord, fieldsOf_addr]
  rfl

theorem decodeWord_jpV0Nnn (nnn : Addr12) : decodeWord (0xB#4 ++ nnn) = .ok (.jpV0Nnn nnn) := by
  rw [decodeWord, fieldsOf_addr]
  rfl

@[simp] theorem zextAddr_toNat (nnn : Addr12) : (zextAddr nnn).toNat = nnn.toNat :=
  BitVec.toNat_setWidth_of_le (by decide)

/-- The target of the indexed jump fits in 16 bits, so nothing of the sum is lost. -/
theorem zextAddr_add_zextByte_toNat (nnn : Addr12) (b : Byte) :
    (zextAddr nnn + zextByte b).toNat = nnn.toNat + b.toNat := by
  have hnnn := nnn.isLt
  have hb := b.isLt
  rw [zextAddr_add_zextByte, BitVec.toNat_ofNat, Nat.mod_eq_of_lt (by omega)]

theorem exec_callNnn_of_room {s : State} (h : s.stack.length < 16) (nnn : Addr12) :
    exec (.callNnn nnn) s =
      .next { s with pc := zextAddr nnn, stack := s.stack ++ [s.pc] } := by
  rw [exec, execCallNnn, pushPc_eq, if_pos h, settle_map_ok]
  rfl

theorem exec_callNnn_of_full {s : State} (h : 16 ≤ s.stack.length) (nnn : Addr12) :
    exec (.callNnn nnn) s =
      .next (enterFault (s.pc - 2#16) ⟨.stackOverflow, 0#16⟩ s) := by
  rw [exec, execCallNnn, pushPc_eq, if_neg h.not_gt, settle_map_error]

/-- Settles O25: the new `pc` is the address immediate, extended. -/
theorem jumpSetsPc : Obligations.JumpSetsPc :=
  fun nnn _ => ⟨decodeWord_jpNnn nnn, _, rfl, rfl, zextAddr_toNat nnn⟩

/-- Settles O26: the two outcomes of the push; a stack of 16 entries is full. -/
theorem callPushesOrOverflows : Obligations.CallPushesOrOverflows :=
  fun nnn _ => ⟨decodeWord_callNnn nnn,
    fun hroom => ⟨_, exec_callNnn_of_room hroom nnn, rfl, zextAddr_toNat nnn⟩,
    fun hfull => exec_callNnn_of_full hfull.ge nnn⟩

/-- Settles O29: the new `pc` is a sum that stays below 65536. -/
theorem indexedJumpAddsV0 : Obligations.IndexedJumpAddsV0 :=
  fun nnn s => ⟨decodeWord_jpV0Nnn nnn, _, rfl, rfl,
    zextAddr_add_zextByte_toNat nnn (readV s 0x0#4)⟩

/-! ### Skips (R82 to R85) -/

theorem decodeWord_seVxNn (x : Nibble) (nn : Byte) :
    decodeWord (0x3#4 ++ x ++ nn) = .ok (.seVxNn x nn) := by
  rw [decodeWord, fieldsOf_regImm]
  rfl

theorem decodeWord_sneVxNn (x : Nibble) (nn : Byte) :
    decodeWord (0x4#4 ++ x ++ nn) = .ok (.sneVxNn x nn) := by
  rw [decodeWord, fieldsOf_regImm]
  rfl

theorem decodeWord_seVxVy (x y : Nibble) :
    decodeWord (0x5#4 ++ x ++ y ++ 0x0#4) = .ok (.seVxVy x y) := by
  rw [decodeWord, fieldsOf_regReg]
  rfl

theorem decodeWord_sneVxVy (x y : Nibble) :
    decodeWord (0x9#4 ++ x ++ y ++ 0x0#4) = .ok (.sneVxVy x y) := by
  rw [decodeWord, fieldsOf_regReg]
  rfl

theorem decodeClass5_of_ne {f : Fields} (h : f.n ≠ 0x0#4) :
    decodeClass5 f = .error (.unrecognized .class5) := by
  unfold decodeClass5
  split
  · contradiction
  · rfl

theorem decodeClass9_of_ne {f : Fields} (h : f.n ≠ 0x0#4) :
    decodeClass9 f = .error (.unrecognized .class9) := by
  unfold decodeClass9
  split
  · contradiction
  · rfl

theorem decodeWord_class5_of_ne {n : Nibble} (h : n ≠ 0x0#4) (x y : Nibble) :
    decodeWord (0x5#4 ++ x ++ y ++ n) = .error (.unrecognized .class5) := by
  rw [decodeWord, fieldsOf_regReg]
  exact decodeClass5_of_ne h

theorem decodeWord_class9_of_ne {n : Nibble} (h : n ≠ 0x0#4) (x y : Nibble) :
    decodeWord (0x9#4 ++ x ++ y ++ n) = .error (.unrecognized .class9) := by
  rw [decodeWord, fieldsOf_regReg]
  exact decodeClass9_of_ne h

/-- A skip on equality and one on difference, with the same operands: equal ones take the first only. -/
theorem skips_of_eq {a b : Byte} (h : a = b) (s : State) :
    skipIf (a == b) s = { s with pc := s.pc + 2#16 } ∧ skipIf (a != b) s = s := by
  rw [beq_iff_eq.2 h, bne_eq_false_iff_eq.2 h]
  exact ⟨rfl, rfl⟩

/-- Different operands take the second only. -/
theorem skips_of_ne {a b : Byte} (h : a ≠ b) (s : State) :
    skipIf (a == b) s = s ∧ skipIf (a != b) s = { s with pc := s.pc + 2#16 } := by
  rw [beq_eq_false_iff_ne.2 h, bne_iff_ne.2 h]
  exact ⟨rfl, rfl⟩

/-- Settles O27: the two instructions are the two skips on Vx and the byte. -/
theorem byteSkips : Obligations.ByteSkips := by
  intro x nn s
  refine ⟨decodeWord_seVxNn x nn, decodeWord_sneVxNn x nn, fun heq => ?_, fun hne => ?_⟩
  · exact (skips_of_eq heq s).imp (congrArg Host.Outcome.next) (congrArg Host.Outcome.next)
  · exact (skips_of_ne hne s).imp (congrArg Host.Outcome.next) (congrArg Host.Outcome.next)

/-- Settles O28: the two instructions are the two skips on Vx and Vy; a low nibble other than 0 is rejected
in its class. -/
theorem registerSkips : Obligations.RegisterSkips := by
  intro x y s
  refine ⟨decodeWord_seVxVy x y, decodeWord_sneVxVy x y,
    fun n hn => ⟨decodeWord_class5_of_ne hn x y, decodeWord_class9_of_ne hn x y⟩,
    fun heq => ?_, fun hne => ?_⟩
  · exact (skips_of_eq heq s).imp (congrArg Host.Outcome.next) (congrArg Host.Outcome.next)
  · exact (skips_of_ne hne s).imp (congrArg Host.Outcome.next) (congrArg Host.Outcome.next)

end Sys2Proof.Machine

/-! PROOFS. Registers and arithmetic (spec/43_alu.md): the words of its instructions, the registers after a
result is written alone and after it is written with its flag, and the flags as numbers; then the clauses. -/

namespace Sys2Proof.Machine

/-! ### The words of the instructions -/

theorem decodeWord_ldVxNn (x : Nibble) (nn : Byte) :
    decodeWord (0x6#4 ++ x ++ nn) = .ok (.ldVxNn x nn) := by
  rw [decodeWord, fieldsOf_regImm]
  rfl

theorem decodeWord_addVxNn (x : Nibble) (nn : Byte) :
    decodeWord (0x7#4 ++ x ++ nn) = .ok (.addVxNn x nn) := by
  rw [decodeWord, fieldsOf_regImm]
  rfl

/-- A word of class 0x8 is left to its low nibble: for a listed nibble the right side is its instruction
by evaluation. -/
theorem decodeWord_class8 (x y n : Nibble) :
    decodeWord (0x8#4 ++ x ++ y ++ n) = decodeClass8 ⟨0x8#4, x, y, n, y ++ n, x ++ y ++ n⟩ := by
  rw [decodeWord, fieldsOf_regReg]
  rfl

/-! ### A result written alone (R88 to R93) -/

@[simp] theorem readV_writeV_same (s : State) (x : Nibble) (b : Byte) : readV (writeV s x b) x = b :=
  (readV_writeV s x x b).trans (if_pos rfl)

theorem readV_writeV_of_ne (s : State) (x : Nibble) (b : Byte) (r : Nibble) (h : r ≠ x) :
    readV (writeV s x b) r = readV s r :=
  (readV_writeV s r x b).trans (if_neg h)

/-- Settles O31: the byte is written to Vx. -/
theorem loadByteWritesVx : Obligations.LoadByteWritesVx :=
  fun x nn s => ⟨decodeWord_ldVxNn x nn, _, rfl, rfl, fun r => readV_writeV s r x nn⟩

/-- Settles O32: the sum is written to Vx and no flag after it. -/
theorem addByteWrapsWithoutFlag : Obligations.AddByteWrapsWithoutFlag := by
  intro x nn s
  refine ⟨decodeWord_addVxNn x nn, _, rfl, rfl, ?_, readV_writeV_of_ne s x _⟩
  rw [readV_writeV_same, sumByte_toNat]

/-- Settles O33: four results written to Vx, three of them bit by bit. -/
theorem copyAndBitwiseWriteOnlyVx : Obligations.CopyAndBitwiseWriteOnlyVx := by
  intro x y s
  refine ⟨decodeWord_class8 x y _, decodeWord_class8 x y _, decodeWord_class8 x y _,
    decodeWord_class8 x y _,
    ⟨_, rfl, rfl, readV_writeV_same s x _, readV_writeV_of_ne s x _⟩,
    ⟨_, rfl, rfl, fun k => ?_, readV_writeV_of_ne s x _⟩,
    ⟨_, rfl, rfl, fun k => ?_, readV_writeV_of_ne s x _⟩,
    ⟨_, rfl, rfl, fun k => ?_, readV_writeV_of_ne s x _⟩⟩
  · rw [readV_writeV_same, BitVec.getLsbD_or]
  · rw [readV_writeV_same, BitVec.getLsbD_and]
  · rw [readV_writeV_same, BitVec.getLsbD_xor]

/-! ### A result written with its flag (R17, R94 to R98) -/

theorem readV_writeWithFlag_flag (s : State) (x : Nibble) (b : Byte) (c : Bool) :
    readV (writeWithFlag s x b c) 0xF#4 = flagByte c :=
  (readV_writeWithFlag s x 0xF#4 b c).trans (if_pos rfl)

theorem readV_writeWithFlag_result {x : Nibble} (h : x ≠ 0xF#4) (s : State) (b : Byte) (c : Bool) :
    readV (writeWithFlag s x b c) x = b :=
  (readV_writeWithFlag s x x b c).trans ((if_neg h).trans (if_pos rfl))

theorem readV_writeWithFlag_of_ne (s : State) (x : Nibble) (b : Byte) (c : Bool) (r : Nibble)
    (hx : r ≠ x) (hflag : r ≠ 0xF#4) : readV (writeWithFlag s x b c) r = readV s r :=
  (readV_writeWithFlag s x r b c).trans ((if_neg hflag).trans (if_neg hx))

/-- A flag computed by a comparison. -/
theorem flagByte_decide (p : Prop) [Decidable p] :
    flagByte (decide p) = if p then 1#8 else 0#8 := by
  simp only [flagByte, decide_eq_true_eq]

theorem flagByte_carryOut (a b : Byte) :
    flagByte (carryOut a b) = if a.toNat + b.toNat > 255 then 1#8 else 0#8 :=
  flagByte_decide _

theorem flagByte_notBorrow (a b : Byte) :
    flagByte (notBorrow a b) = if b.toNat ≤ a.toNat then 1#8 else 0#8 :=
  flagByte_decide _

theorem flagByte_toNat (c : Bool) : (flagByte c).toNat = c.toNat := by
  cases c <;> rfl

theorem flagByte_lowBit_toNat (a : Byte) : (flagByte (lowBit a)).toNat = a.toNat % 2 := by
  rw [flagByte_toNat, lowBit, BitVec.getLsbD, Nat.toNat_testBit, pow_zero, Nat.div_one]

/-- Bit 7 is the highest bit of a byte, so nothing stands above it in the quotient. -/
theorem flagByte_highBit_toNat (a : Byte) : (flagByte (highBit a)).toNat = a.toNat / 128 := by
  have hquot : a.toNat / 128 < 2 := Nat.div_lt_of_lt_mul a.isLt
  rw [flagByte_toNat, highBit, BitVec.getLsbD, Nat.toNat_testBit]
  exact Nat.mod_eq_of_lt hquot

/-- The difference without a negative number: 256 is added before the subtrahend is taken away. -/
theorem differenceByte_toNat (a b : Byte) :
    (differenceByte a b).toNat = (a.toNat + 256 - b.toNat) % 256 := by
  have hb := b.isLt
  have hint := differenceByte_toInt a b
  omega

/-- What SUB and SUBN share: the registers after a difference is written with its not-borrow. -/
theorem writeWithFlag_difference (s : State) (x : Nibble) (a b : Byte) :
    let t := writeWithFlag s x (differenceByte a b) (notBorrow a b)
    readV t 0xF#4 = (if b.toNat ≤ a.toNat then 1#8 else 0#8) ∧
    (x ≠ 0xF#4 → (readV t x).toNat = (a.toNat + 256 - b.toNat) % 256) ∧
    ∀ r, r ≠ x → r ≠ 0xF#4 → readV t r = readV s r := by
  refine ⟨?_, fun hx => ?_, readV_writeWithFlag_of_ne s x _ _⟩
  · rw [readV_writeWithFlag_flag, flagByte_notBorrow]
  · rw [readV_writeWithFlag_result hx, differenceByte_toNat]

/-- Settles O34: the sum is written to Vx, and then the carry to VF. -/
theorem addSetsCarry : Obligations.AddSetsCarry := by
  intro x y s
  refine ⟨decodeWord_class8 x y _, _, rfl, rfl, ?_, fun hx => ?_, readV_writeWithFlag_of_ne s x _ _⟩
  · rw [readV_writeWithFlag_flag, flagByte_carryOut]
  · rw [readV_writeWithFlag_result hx, sumByte_toNat]

/-- Settles O35: the two instructions are one difference with the operands exchanged. -/
theorem subtractionsSetNotBorrow : Obligations.SubtractionsSetNotBorrow :=
  fun x y s => ⟨decodeWord_class8 x y _, decodeWord_class8 x y _,
    ⟨_, rfl, rfl, writeWithFlag_difference s x (readV s x) (readV s y)⟩,
    ⟨_, rfl, rfl, writeWithFlag_difference s x (readV s y) (readV s x)⟩⟩

/-- Settles O36: each shift writes its quotient or product to Vx, and then the bit moved out to VF. -/
theorem shiftsMoveOneBitToFlag : Obligations.ShiftsMoveOneBitToFlag := by
  intro x y s
  refine ⟨decodeWord_class8 x y _, decodeWord_class8 x y _,
    ⟨_, rfl, rfl, ?_, fun hx => ?_, readV_writeWithFlag_of_ne s x _ _⟩,
    ⟨_, rfl, rfl, ?_, fun hx => ?_, readV_writeWithFlag_of_ne s x _ _⟩⟩
  · rw [readV_writeWithFlag_flag, flagByte_lowBit_toNat]
  · rw [readV_writeWithFlag_result hx, shiftRightByte_toNat]
  · rw [readV_writeWithFlag_flag, flagByte_highBit_toNat]
  · rw [readV_writeWithFlag_result hx, shiftLeftByte_toNat]

end Sys2Proof.Machine

/-! PROOFS. The index register and memory (spec/44_index_memory.md): the words of its instructions, the two
outcomes of a store at `I` and of a load from `I`, and what each leaves byte by byte; then the clauses. -/

namespace Sys2Proof.Machine

/-! ### The words of the instructions -/

theorem decodeWord_ldINnn (nnn : Addr12) : decodeWord (0xA#4 ++ nnn) = .ok (.ldINnn nnn) := by
  rw [decodeWord, fieldsOf_addr]
  rfl

/-- A word of class 0xF is left to its low byte: for a listed byte the right side is its instruction by
evaluation. -/
theorem decodeWord_classF (x : Nibble) (nn : Byte) :
    decodeWord (0xF#4 ++ x ++ nn) =
      decodeClassF ⟨0xF#4, x, nn.extractLsb' 4 4, nn.extractLsb' 0 4, nn, x ++ nn⟩ := by
  rw [decodeWord, fieldsOf_regImm]
  rfl

/-! ### The index register (R101, R102) -/

/-- Settles O38: the new `I` is the address immediate, extended. -/
theorem loadIndexSetsI : Obligations.LoadIndexSetsI :=
  fun nnn _ => ⟨decodeWord_ldINnn nnn, _, rfl, rfl, zextAddr_toNat nnn⟩

theorem readV_writeFlag_flag (s : State) (c : Bool) : readV (writeFlag s c) 0xF#4 = flagByte c :=
  (readV_writeFlag s vfIndex c).trans (if_pos rfl)

theorem readV_writeFlag_of_ne (s : State) (c : Bool) (r : Nibble) (h : r ≠ 0xF#4) :
    readV (writeFlag s c) r = readV s r :=
  (readV_writeFlag s r c).trans (if_neg h)

theorem flagByte_indexPast (i : Word) (b : Byte) :
    flagByte (indexPast i b) = if i.toNat + b.toNat > 0xFFF then 1#8 else 0#8 :=
  flagByte_decide _

/-- Settles O39: the sum is written to `I`, and then the flag of the unbounded sum to VF. -/
theorem addToIndexSetsFlag : Obligations.AddToIndexSetsFlag := by
  intro x s
  refine ⟨decodeWord_classF x _, _, rfl, rfl, indexSum_toNat s.index (readV s x), ?flag,
    readV_writeFlag_of_ne (setIndex s _) _⟩
  case flag => rw [readV_writeFlag_flag, flagByte_indexPast]

/-! ### The font instruction (R103) -/

theorem exec_ldFVx_of_lenient {s : State} (h : s.strictDecode = false) (x : Nibble) :
    exec (.ldFVx x) s =
      .next { s with diag := s.diag ++ [⟨s.pc - 2#16, encode (.ldFVx x)⟩] } := by
  rw [exec, execLdFVx, unrecognizedAction_lenient h, settle_ok]

theorem exec_ldFVx_of_strict {s : State} (h : s.strictDecode = true) (x : Nibble) :
    exec (.ldFVx x) s =
      .next (enterFault (s.pc - 2#16) ⟨.unknownOpcode, encode (.ldFVx x)⟩ s) := by
  rw [exec, execLdFVx, unrecognizedAction_strict h, settle_error]

/-- Settles O40: the two actions of an unrecognized word, on the instruction's own word. -/
theorem fontInstructionIsUnrecognized : Obligations.FontInstructionIsUnrecognized :=
  fun x _ => ⟨decodeWord_classF x _, fun hlenient => exec_ldFVx_of_lenient hlenient x,
    fun hstrict => exec_ldFVx_of_strict hstrict x⟩

/-! ### A store at `I` (R42, R107) -/

/-- The state after bytes that fit are stored from `I` upward. -/
def afterStore (s : State) (bytes : List Byte) : State :=
  { s with mem := memSetBytes s.mem s.index.toNat bytes }

theorem settle_storeAtIndex_of_fits {s : State} {bytes : List Byte}
    (h : s.index.toNat + bytes.length ≤ 4096) :
    settle s (storeAtIndex s bytes) = afterStore s bytes := by
  rw [storeAtIndex, baseAddr, memWriteBytes_eq, if_pos (.inr h), settle_map_ok]
  rfl

theorem settle_storeAtIndex_of_outOfBounds {s : State} {bytes : List Byte} (hne : bytes.length ≠ 0)
    (h : 4096 < s.index.toNat + bytes.length) :
    settle s (storeAtIndex s bytes) =
      enterFault (s.pc - 2#16) (outOfBoundsAt (max s.index.toNat 4096)) s := by
  rw [storeAtIndex, baseAddr, memWriteBytes_eq, if_neg (not_or.2 ⟨hne, h.not_ge⟩), settle_map_error]

section
variable {s : State} {bytes : List Byte} (hwf : Memory.wf s.mem = true)
  (hfits : s.index.toNat + bytes.length ≤ 4096)
include hwf hfits

theorem memGet_afterStore_inside {i : Nat} (hi : i < bytes.length) :
    memGet (afterStore s bytes).mem (s.index.toNat + i) = bytes[i] := by
  rw [afterStore, memGet_memSetBytes hwf (.inr hfits), if_pos (Nat.le_add_right _ _),
    Nat.add_sub_cancel_left, List.getD_eq_getElem _ _ hi]

theorem memGet_afterStore_outside {a : Nat}
    (ha : a < s.index.toNat ∨ s.index.toNat + bytes.length ≤ a) :
    memGet (afterStore s bytes).mem a = memGet s.mem a := by
  rw [afterStore, memGet_memSetBytes hwf (.inr hfits)]
  rcases ha with hbelow | habove
  · rw [if_neg hbelow.not_ge]
  · rw [if_pos (by omega), List.getD_eq_default _ _ (by omega)]

end

/-! ### The decimal digits (R104) -/

theorem exec_ldBVx_of_fits {s : State} (h : s.index.toNat ≤ 4093) (x : Nibble) :
    exec (.ldBVx x) s = .next (afterStore s (decimalDigits (readV s x))) := by
  rw [exec, execLdBVx, settle_storeAtIndex_of_fits (Nat.add_le_add_right h 3)]

theorem exec_ldBVx_of_outOfBounds {s : State} (h : 4093 < s.index.toNat) (x : Nibble) :
    exec (.ldBVx x) s =
      .next (enterFault (s.pc - 2#16) (outOfBoundsAt (max s.index.toNat 4096)) s) := by
  rw [exec, execLdBVx, settle_storeAtIndex_of_outOfBounds (by simp)
    (by rw [decimalDigits_length]; omega)]

/-- A number no larger than a byte is kept by a byte, as each decimal digit is. -/
theorem toNat_ofNat_of_le_byte {n : Nat} {b : Byte} (h : n ≤ b.toNat) : (BitVec.ofNat 8 n).toNat = n :=
  Nat.mod_eq_of_lt (h.trans_lt b.isLt)

/-- Settles O41: when the three bytes fit, the digits one by one; else the fault entry. -/
theorem decimalDigitsAreStored : Obligations.DecimalDigitsAreStored := by
  intro x s hwf
  refine ⟨decodeWord_classF x _, fun hindex => ?stored, fun hout => exec_ldBVx_of_outOfBounds hout x⟩
  have hfits : s.index.toNat + (decimalDigits (readV s x)).length ≤ 4096 :=
    Nat.add_le_add_right hindex 3
  have hdigit : ∀ i (hi : i < 3), memGet (afterStore s (decimalDigits (readV s x))).mem
      (s.index.toNat + i) = (decimalDigits (readV s x))[i] :=
    fun i hi => memGet_afterStore_inside hwf hfits hi
  refine ⟨_, exec_ldBVx_of_fits hindex x, rfl, ?hundreds, ?tens, ?units,
    fun a ha => memGet_afterStore_outside hwf hfits ha⟩
  case hundreds =>
    exact (congrArg BitVec.toNat (hdigit 0 (by decide))).trans
      (toNat_ofNat_of_le_byte (Nat.div_le_self _ _))
  case tens =>
    exact (congrArg BitVec.toNat (hdigit 1 (by decide))).trans
      (toNat_ofNat_of_le_byte ((Nat.mod_le _ _).trans (Nat.div_le_self _ _)))
  case units =>
    exact (congrArg BitVec.toNat (hdigit 2 (by decide))).trans
      (toNat_ofNat_of_le_byte (Nat.mod_le _ _))

/-! ### The register range stored (R105) -/

theorem exec_ldMemVx_of_fits {x : Nibble} {s : State} (h : s.index.toNat + x.toNat ≤ 4095) :
    exec (.ldMemVx x) s = .next (afterStore s (rangeBytes s x)) := by
  rw [exec, execLdMemVx, settle_storeAtIndex_of_fits (by rw [rangeBytes_length]; omega)]

theorem exec_ldMemVx_of_outOfBounds {x : Nibble} {s : State} (h : 4095 < s.index.toNat + x.toNat) :
    exec (.ldMemVx x) s =
      .next (enterFault (s.pc - 2#16) (outOfBoundsAt (max s.index.toNat 4096)) s) := by
  rw [exec, execLdMemVx, settle_storeAtIndex_of_outOfBounds (by simp)
    (by rw [rangeBytes_length]; omega)]

theorem rangeBytes_getElem (s : State) {x k : Nibble} (h : k.toNat < (rangeBytes s x).length) :
    (rangeBytes s x)[k.toNat] = readV s k := by
  simp [rangeBytes]

/-- Settles O42: when the range fits, a register's byte is the one at its index in the stored bytes; else
the fault entry. -/
theorem registerRangeIsStored : Obligations.RegisterRangeIsStored := by
  intro x s hwf
  refine ⟨decodeWord_classF x _, fun hrange => ?stored, exec_ldMemVx_of_outOfBounds⟩
  have hlen : (rangeBytes s x).length = x.toNat + 1 := rangeBytes_length s x
  have hfits : s.index.toNat + (rangeBytes s x).length ≤ 4096 := by omega
  refine ⟨_, exec_ldMemVx_of_fits hrange, rfl, fun k hk => ?inside, fun a ha => ?outside⟩
  case inside =>
    have hk' : k.toNat < (rangeBytes s x).length := by omega
    rw [memGet_afterStore_inside hwf hfits hk', rangeBytes_getElem]
  case outside => exact memGet_afterStore_outside hwf hfits (by omega)

/-! ### The register range loaded (R106) -/

/-- The state after V0 to Vx are loaded from a range that fits. -/
def afterLoad (s : State) (x : Nibble) : State :=
  writeVFrom s 0 ((List.range (rangeCount x)).map fun k => memGet s.mem (s.index.toNat + k))

theorem exec_ldVxMem_of_fits {x : Nibble} {s : State} (h : s.index.toNat + x.toNat ≤ 4095) :
    exec (.ldVxMem x) s = .next (afterLoad s x) := by
  have hfits : rangeCount x = 0 ∨ baseAddr s + rangeCount x ≤ 4096 := .inr (Nat.succ_le_succ h)
  rw [exec, execLdVxMem, memReadBytes_eq, if_pos hfits, settle_map_ok]
  rfl

theorem exec_ldVxMem_of_outOfBounds {x : Nibble} {s : State} (h : 4095 < s.index.toNat + x.toNat) :
    exec (.ldVxMem x) s =
      .next (enterFault (s.pc - 2#16) (outOfBoundsAt (max s.index.toNat 4096)) s) := by
  have hout : ¬ (rangeCount x = 0 ∨ baseAddr s + rangeCount x ≤ 4096) :=
    not_or.2 ⟨Nat.succ_ne_zero _, (Nat.succ_lt_succ h).not_ge⟩
  rw [exec, execLdVxMem, memReadBytes_eq, if_neg hout, settle_map_error, baseAddr]

theorem readV_afterLoad (s : State) (x k : Nibble) :
    readV (afterLoad s x) k =
      if k.toNat ≤ x.toNat then memGet s.mem (s.index.toNat + k.toNat) else readV s k := by
  have hx := x.isLt
  rw [afterLoad, readV_writeVFrom s 0 _ (by simp [rangeCount]; omega), if_pos (Nat.zero_le _)]
  split_ifs with hk
  · simp [rangeCount, Nat.lt_succ_of_le hk]
  · simp [rangeCount, hk]

/-- Settles O43: when the range fits, `afterLoad` register by register; else the fault entry. -/
theorem registerRangeIsLoaded : Obligations.RegisterRangeIsLoaded :=
  fun x s => ⟨decodeWord_classF x _,
    fun hrange => ⟨_, exec_ldVxMem_of_fits hrange, writeVFrom_only s 0 _, readV_afterLoad s x⟩,
    exec_ldVxMem_of_outOfBounds⟩

end Sys2Proof.Machine

/-! PROOFS. The keypad and the timers (spec/45_keypad_timers.md): the outcomes of the two key skips and of the
key wait, and the function of the snapshot that picks the key; then the clauses. -/

namespace Sys2Proof.Machine

/-! ### The words of the instructions -/

/-- A word of class 0xE is left to its low byte: for a listed byte the right side is its instruction by
evaluation. -/
theorem decodeWord_classE (x : Nibble) (nn : Byte) :
    decodeWord (0xE#4 ++ x ++ nn) =
      decodeClassE ⟨0xE#4, x, nn.extractLsb' 4 4, nn.extractLsb' 0 4, nn, x ++ nn⟩ := by
  rw [decodeWord, fieldsOf_regImm]
  rfl

/-! ### The key wait (R111) -/

theorem keySelect_none_iff_keys (K : Keypad) : keySelect K = none ↔ ∀ k : Fin 16, K[k] = false := by
  simpa using (exists_key_down_iff K).not.symm

theorem exec_ldVxK_of_none {s : State} (h : keySelect s.keys = none) (x : Nibble) :
    exec (.ldVxK x) s = .next { s with pc := s.pc - 2#16 } := by
  rw [exec, execLdVxK, keyWait, h]
  rfl

theorem exec_ldVxK_of_some {s : State} {k : Nibble} (h : keySelect s.keys = some k) (x : Nibble) :
    exec (.ldVxK x) s = .next (writeV s x (k.setWidth 8)) := by
  rw [exec, execLdVxK, keyWait, h]

/-- `KEY_SELECT` as a total function of the snapshot; with no key down, where its value is never used, it
is key 0. -/
def selectedKey (K : Keypad) : Fin 16 := ((keySelect K).getD 0#4).toFin

theorem selectedKey_of_some {K : Keypad} {k : Nibble} (h : keySelect K = some k) :
    selectedKey K = k.toFin := by
  rw [selectedKey, h, Option.getD_some]

/-- Settles O48: `KEY_SELECT` answers no key exactly when none is down, and then `pc` is rewound; a key it
answers is down, and is the one stored. -/
theorem keyWaitRewindsOrStoresDownKey : Obligations.KeyWaitRewindsOrStoresDownKey := by
  refine ⟨selectedKey, fun x s => ⟨decodeWord_classF x _, fun hup => ?rewound, fun hdown => ?stored⟩⟩
  case rewound => exact exec_ldVxK_of_none ((keySelect_none_iff_keys s.keys).2 hup) x
  case stored =>
    obtain ⟨k, hk⟩ := Option.ne_none_iff_exists'.1 ((exists_key_down_iff s.keys).1 hdown)
    simp only [selectedKey_of_some hk]
    refine ⟨keySelect_down hk, _, exec_ldVxK_of_some hk x, rfl, ?key, readV_writeV_of_ne s x _⟩
    rw [readV_writeV_same]
    exact BitVec.toNat_setWidth_of_le (by decide)

/-! ### The key skips (R108, R109) -/

theorem keyOperand_of_lt {b : Byte} (h : b.toNat < 16) : keyOperand b = .ok (b.setWidth 4) := by
  rw [keyOperand_eq, if_pos h]

theorem keyOperand_of_gt {b : Byte} (h : 15 < b.toNat) :
    keyOperand b = .error ⟨.keyOutOfRange, BitVec.ofNat 16 b.toNat⟩ := by
  rw [keyOperand_eq, if_neg (Nat.not_lt.2 h), zextByte, BitVec.ofNat_toNat]

/-- For a register that names a key, the checked index reads that key. -/
theorem keyDown_setWidth {b : Byte} (h : b.toNat < 16) (K : Keypad) :
    keyDown K (b.setWidth 4) = K[b.toNat] :=
  (Option.some.inj ((Vector.getElem?_eq_getElem h).symm.trans
    (keys_at_of_keyOperand (keyOperand_of_lt h) K))).symm

/-- On a key the two are skips on one bit of the snapshot and on its negation. -/
theorem exec_key_skips_of_lt {x : Nibble} {s : State} (h : (readV s x).toNat < 16) :
    exec (.skpVx x) s = .next (skipIf s.keys[(readV s x).toNat] s) ∧
    exec (.sknpVx x) s = .next (skipIf (!s.keys[(readV s x).toNat]) s) := by
  simp only [exec, execSkpVx, execSknpVx, keyOperand_of_lt h, settle_map_ok, keyDown_setWidth h,
    and_self]

/-- Above 15 both record the same fault. -/
theorem exec_key_skips_of_gt {x : Nibble} {s : State} (h : 15 < (readV s x).toNat) :
    exec (.skpVx x) s = .next
      (enterFault (s.pc - 2#16) ⟨.keyOutOfRange, BitVec.ofNat 16 (readV s x).toNat⟩ s) ∧
    exec (.sknpVx x) s = .next
      (enterFault (s.pc - 2#16) ⟨.keyOutOfRange, BitVec.ofNat 16 (readV s x).toNat⟩ s) := by
  simp only [exec, execSkpVx, execSknpVx, keyOperand_of_gt h, settle_map_error, and_self]

/-- Settles O46: on a key, the two skips by the value of its bit; above 15, the fault entry. -/
theorem keySkips : Obligations.KeySkips := by
  intro x s
  refine ⟨decodeWord_classE x _, decodeWord_classE x _, fun hkey => ?onKey, exec_key_skips_of_gt⟩
  obtain ⟨hskp, hsknp⟩ := exec_key_skips_of_lt hkey
  rw [hskp, hsknp]
  refine ⟨fun hdown => ?down, fun hup => ?up⟩
  case down => rw [hdown]; exact ⟨rfl, rfl⟩
  case up => rw [hup]; exact ⟨rfl, rfl⟩

/-! ### The timers (R110, R112, R113) -/

/-- Settles O47: the delay timer is written to Vx. -/
theorem readDelayTimer : Obligations.ReadDelayTimer :=
  fun x s => ⟨decodeWord_classF x _, _, rfl, rfl, fun r => readV_writeV s r x s.dt⟩

/-- Settles O49: the words decode by their low byte, and the two meanings are these updates. -/
theorem setTimers : Obligations.SetTimers :=
  fun x _ => ⟨decodeWord_classF x _, decodeWord_classF x _, rfl, rfl⟩

end Sys2Proof.Machine

/-! PROOFS. The faults and the timer tick (spec/60_exceptions.md): one decrement; what each instruction can
raise, and when; the fault that a step enters; then the clauses. -/

namespace Sys2Proof.Machine

/-! ### The timer tick (R118) -/

theorem countDown_toNat (b : Byte) : (countDown b).toNat = b.toNat - 1 := by
  unfold countDown
  split_ifs with hzero
  · simp [hzero]
  · bv_omega

theorem tick_of_running {s : State} (h : s.Running) :
    tick s = { s with dt := countDown s.dt, st := countDown s.st } := by
  rw [tick, h]

theorem tick_of_not_running {s : State} (h : ¬ s.Running) : tick s = s := by
  unfold tick
  split
  case h_1 hrun => exact absurd hrun h
  case h_2 => rfl

/-- Settles O18: a running core's tick is one decrement of each timer; a faulted one takes none. -/
theorem tickDecrementsBothTimers : Obligations.TickDecrementsBothTimers := by
  refine fun s => ⟨fun hrun => ?_, tick_of_not_running⟩
  rw [tick_of_running hrun]
  exact ⟨rfl, countDown_toNat s.dt, countDown_toNat s.st⟩

/-! ### What an instruction can raise (R122) -/

/-- How many bytes an instruction reads or stores from `I` upward (R77, R104 to R106). -/
def accessCount : Instr → Nat
  | .drwVxVyN _ _ n => n.toNat
  | .ldBVx _ => 3
  | .ldMemVx x | .ldVxMem x => x.toNat + 1
  | _ => 0

/-- The instructions with a data access are the four that R122 names. -/
theorem accesses_of_accessCount_ne_zero {i : Instr} (h : accessCount i ≠ 0) :
    (∃ x y n, i = .drwVxVyN x y n) ∨ (∃ x, i = .ldBVx x) ∨ (∃ x, i = .ldMemVx x) ∨
      ∃ x, i = .ldVxMem x := by
  unfold accessCount at h
  split at h
  case h_5 => exact absurd rfl h
  all_goals simp

/-- `Raises s i f`: `i`, executed in the state `s` that the advance left, raises `f` (R122, R124). -/
inductive Raises (s : State) : Instr → FaultRaise → Prop
  | outOfBounds {i : Instr} (hcount : accessCount i ≠ 0)
      (hout : 4096 < s.index.toNat + accessCount i) :
      Raises s i (outOfBoundsAt (max s.index.toNat 4096))
  | stackUnderflow (hempty : s.stack = []) : Raises s .ret ⟨.stackUnderflow, 0#16⟩
  | stackOverflow (nnn : Addr12) (hfull : 16 ≤ s.stack.length) :
      Raises s (.callNnn nnn) ⟨.stackOverflow, 0#16⟩
  | keyOutOfRange {i : Instr} (x : Nibble) (hskip : i = .skpVx x ∨ i = .sknpVx x)
      (hkey : 15 < (readV s x).toNat) :
      Raises s i ⟨.keyOutOfRange, BitVec.ofNat 16 (readV s x).toNat⟩
  | unknownOpcode (x : Nibble) (hstrict : s.strictDecode = true) :
      Raises s (.ldFVx x) ⟨.unknownOpcode, encode (.ldFVx x)⟩

@[simp] theorem keyWait_status (x : Nibble) (s : State) : (keyWait x s).status = s.status := by
  unfold keyWait
  split <;> rfl

@[simp] theorem skipIf_status (c : Bool) (s : State) : (skipIf c s).status = s.status := by
  rw [skipIf_eq]

theorem afterLoad_status (s : State) (x : Nibble) : (afterLoad s x).status = s.status := by
  rw [afterLoad, writeVFrom_only s 0]

/-- An execution keeps the status record, or raises a fault and is the entry of that fault. -/
theorem exec_cases (i : Instr) (s : State) :
    (∃ t, exec i s = .next t ∧ t.status = s.status) ∨
    ∃ f, Raises s i f ∧ exec i s = .next (enterFault (s.pc - 2#16) f s) := by
  match i with
  | .ret =>
    obtain hempty | ⟨below, top, hstack⟩ := s.stack.eq_nil_or_concat'
    · exact .inr ⟨_, .stackUnderflow hempty, exec_ret_of_empty hempty⟩
    · exact .inl ⟨_, exec_ret_of_nonempty hstack, rfl⟩
  | .callNnn nnn =>
    obtain hroom | hfull := Nat.lt_or_ge s.stack.length 16
    · exact .inl ⟨_, exec_callNnn_of_room hroom nnn, rfl⟩
    · exact .inr ⟨_, .stackOverflow nnn hfull, exec_callNnn_of_full hfull nnn⟩
  | .drwVxVyN x y n =>
    by_cases hfits : n = 0#4 ∨ s.index.toNat + n.toNat ≤ 4096
    · exact .inl ⟨_, exec_drwVxVyN_of_fits hfits, rfl⟩
    · obtain ⟨hn, hout⟩ := not_or.1 hfits
      have hcount : n.toNat ≠ 0 := fun h0 => hn (BitVec.eq_of_toNat_eq h0)
      have hout' := Nat.lt_of_not_le hout
      exact .inr ⟨_, .outOfBounds hcount hout', exec_drwVxVyN_of_outOfBounds hn hout'⟩
  | .ldBVx x =>
    obtain hfits | hout := le_or_gt s.index.toNat 4093
    · exact .inl ⟨_, exec_ldBVx_of_fits hfits x, rfl⟩
    · exact .inr ⟨_, .outOfBounds (Nat.succ_ne_zero _) (Nat.add_lt_add_right hout 3),
        exec_ldBVx_of_outOfBounds hout x⟩
  | .ldMemVx x =>
    obtain hfits | hout := le_or_gt (s.index.toNat + x.toNat) 4095
    · exact .inl ⟨_, exec_ldMemVx_of_fits hfits, rfl⟩
    · exact .inr ⟨_, .outOfBounds (Nat.succ_ne_zero _) (Nat.succ_lt_succ hout),
        exec_ldMemVx_of_outOfBounds hout⟩
  | .ldVxMem x =>
    obtain hfits | hout := le_or_gt (s.index.toNat + x.toNat) 4095
    · exact .inl ⟨_, exec_ldVxMem_of_fits hfits, afterLoad_status s x⟩
    · exact .inr ⟨_, .outOfBounds (Nat.succ_ne_zero _) (Nat.succ_lt_succ hout),
        exec_ldVxMem_of_outOfBounds hout⟩
  | .skpVx x =>
    obtain hkey | hout := Nat.lt_or_ge (readV s x).toNat 16
    · exact .inl ⟨_, (exec_key_skips_of_lt hkey).1, skipIf_status _ s⟩
    · exact .inr ⟨_, .keyOutOfRange x (.inl rfl) hout, (exec_key_skips_of_gt hout).1⟩
  | .sknpVx x =>
    obtain hkey | hout := Nat.lt_or_ge (readV s x).toNat 16
    · exact .inl ⟨_, (exec_key_skips_of_lt hkey).2, skipIf_status _ s⟩
    · exact .inr ⟨_, .keyOutOfRange x (.inr rfl) hout, (exec_key_skips_of_gt hout).2⟩
  | .ldFVx x =>
    cases hstrict : s.strictDecode
    case false => exact .inl ⟨_, exec_ldFVx_of_lenient hstrict x, rfl⟩
    case true => exact .inr ⟨_, .unknownOpcode x hstrict, exec_ldFVx_of_strict hstrict x⟩
  | .seVxNn _ _ | .sneVxNn _ _ | .seVxVy _ _ | .sneVxVy _ _ =>
    exact .inl ⟨_, rfl, skipIf_status _ s⟩
  | .ldVxK x => exact .inl ⟨_, rfl, keyWait_status x s⟩
  | .cls | .jpNnn _ | .jpV0Nnn _ | .ldVxNn _ _ | .addVxNn _ _ | .ldVxVy _ _ | .orVxVy _ _
  | .andVxVy _ _ | .xorVxVy _ _ | .addVxVy _ _ | .subVxVy _ _ | .shrVxVy _ _ | .subnVxVy _ _
  | .shlVxVy _ _ | .ldINnn _ | .rndVxNn _ _ | .ldVxDt _ | .ldDtVx _ | .ldStVx _ | .addIVx _ =>
    exact .inl ⟨_, rfl, rfl⟩

/-! ### What a fetched word can raise -/

/-- A word `w` raises what its instruction raises; a word that selects no row raises `UnknownOpcode(w)` in
strict mode (R72). -/
def WordRaises (s : State) (w : Word) (f : FaultRaise) : Prop :=
  (∃ i, decodeWord w = .ok i ∧ Raises s i f) ∨
  ((∃ e, decodeWord w = .error e) ∧ s.strictDecode = true ∧ f = ⟨.unknownOpcode, w⟩)

theorem execWord_cases (w : Word) (s : State) :
    (∃ t, execWord w s = .next t ∧ t.status = s.status) ∨
    ∃ f, WordRaises s w f ∧ execWord w s = .next (enterFault (s.pc - 2#16) f s) := by
  cases hdecode : decodeWord w with
  | ok i =>
    rw [execWord_decoded hdecode]
    exact (exec_cases i s).imp_right fun ⟨f, hf, hexec⟩ => ⟨f, .inl ⟨i, hdecode, hf⟩, hexec⟩
  | error e =>
    rw [execWord_reject hdecode]
    cases hstrict : s.strictDecode
    case false => exact .inl ⟨_, rfl, by rw [unrecognizedAction_lenient hstrict, settle_ok]⟩
    case true =>
      exact .inr ⟨_, .inr ⟨⟨e, hdecode⟩, hstrict, rfl⟩,
        by rw [unrecognizedAction_strict hstrict, settle_error]⟩

/-- A step of a running core that leaves it faulted has failed its fetch, or has entered a fault that the
fetched word raised in the state the advance left. -/
theorem step_fault_cases {s t : State} (hs : s.Running) (h : step s = .next t) (ht : ¬ t.Running) :
    (4094 < s.pc.toNat ∧
      t = enterFault s.pc (outOfBoundsAt (max s.pc.toNat 4096)) (hostTurn s)) ∨
    (s.pc.toNat ≤ 4094 ∧ ∃ f, WordRaises (advancePc (hostTurn s)) (fetchedWord s) f ∧
      t = enterFault s.pc f (advancePc (hostTurn s))) := by
  obtain ⟨hfaulted, -⟩ | ⟨-, hpc, hstep⟩ | ⟨-, hpc, hstep⟩ := step_cases s
  · simp [hs] at hfaulted
  · exact .inl ⟨hpc, Host.Outcome.next.inj (h.symm.trans hstep)⟩
  · have hrun : ((advancePc (hostTurn s)).status).state = .running := by simpa using hs
    refine .inr ⟨hpc, ?_⟩
    obtain ⟨u, hword, hstatus⟩ | ⟨f, hf, hword⟩ :=
      execWord_cases (fetchedWord s) (advancePc (hostTurn s))
    · obtain rfl := Host.Outcome.next.inj (h.symm.trans (hstep.trans hword))
      exact absurd ((congrArg RunStatus.state hstatus).trans hrun) ht
    · refine ⟨f, hf, ?_⟩
      simpa using Host.Outcome.next.inj (h.symm.trans (hstep.trans hword))

/-! ### The words of `UnknownOpcode` and the address of `OutOfBounds` -/

theorem decodeClassF_eq_ldFVx {f : Fields} {x : Nibble} (h : decodeClassF f = .ok (.ldFVx x)) :
    f.x = x ∧ f.nn = 0x29#8 := by
  unfold decodeClassF at h
  split at h
  case h_6 hnn => exact ⟨Instr.ldFVx.inj (Except.ok.inj h), hnn⟩
  all_goals cases h

/-- Class 0xF alone answers `Fx29`. -/
theorem decodeFields_eq_ldFVx {f : Fields} {x : Nibble} (h : decodeFields f = .ok (.ldFVx x)) :
    f.op = 0xF#4 ∧ decodeClassF f = .ok (.ldFVx x) := by
  unfold decodeFields at h
  split at h
  case h_16 =>
    simp only [imp_false] at *
    exact ⟨by bv_omega, h⟩
  case h_1 | h_6 | h_9 | h_10 | h_15 =>
    simp only [decodeClass0, decodeClass5, decodeClass8, decodeClass9, decodeClassE] at h
    split at h <;> cases h
  all_goals cases h

/-- The decoder answers `Fx29` for its own words only. -/
theorem encode_of_decodeWord_ldFVx {w : Word} {x : Nibble} (h : decodeWord w = .ok (.ldFVx x)) :
    encode (.ldFVx x) = w := by
  obtain ⟨hop, hclass⟩ := decodeFields_eq_ldFVx h
  obtain ⟨hx, hnn⟩ := decodeClassF_eq_ldFVx hclass
  rw [word_eq_fields w, hop, hx, hnn, encode]

theorem unimplementedWord_of_ldFVx {w : Word} {x : Nibble} (h : decodeWord w = .ok (.ldFVx x)) :
    unimplementedWord w = true := by
  rw [unimplementedWord, h]

theorem unimplementedWord_of_reject {w : Word} {e : DecodeReject} (h : decodeWord w = .error e) :
    unimplementedWord w = true := by
  rw [unimplementedWord, h]

/-- The first address out of range from a 16-bit base is at most 65535, so `info` holds it. -/
theorem outOfBoundsAt_info_toNat (a : Word) :
    (outOfBoundsAt (max a.toNat 4096)).info.toNat = max a.toNat 4096 :=
  Nat.mod_eq_of_lt (max_lt a.isLt (by decide))

theorem toNat_word_of_byte (b : Byte) : (BitVec.ofNat 16 b.toNat).toNat = b.toNat :=
  Nat.mod_eq_of_lt (b.isLt.trans (by decide))

/-- Settles O14: a failed fetch, or by what the fetched word raised; the host's turn and the advance keep
`I`, the registers and the mode. -/
theorem faultCausesAndInfo : Obligations.FaultCausesAndInfo := by
  refine ⟨fun s t hs h ht => ?_, rfl, rfl, rfl, rfl, rfl, rfl⟩
  obtain ⟨hpc, rfl⟩ | ⟨hpc, f, hraise, rfl⟩ := step_fault_cases hs h ht
  · exact Or.inl ⟨hpc, outOfBoundsAt_info_toNat s.pc⟩
  obtain ⟨i, hdecode, hraise⟩ | ⟨⟨e, hdecode⟩, hstrict, rfl⟩ := hraise
  · cases hraise with
    | outOfBounds hcount _ =>
      have hinfo := outOfBoundsAt_info_toNat (advancePc (hostTurn s)).index
      exact Or.inr ⟨hpc, i, hdecode, by simpa using hinfo, accesses_of_accessCount_ne_zero hcount⟩
    | stackUnderflow _ => exact And.intro hdecode rfl
    | stackOverflow nnn _ => exact And.intro ⟨nnn, hdecode⟩ rfl
    | keyOutOfRange x hskip hkey =>
      rw [readV_advancePc, readV_hostTurn] at hkey ⊢
      have hword := hskip.imp (hdecode.trans ∘ congrArg _) (hdecode.trans ∘ congrArg _)
      exact Exists.intro x ⟨hword, hkey, toNat_word_of_byte (readV s x)⟩
    | unknownOpcode x hstrict =>
      exact And.intro (by simpa using hstrict)
        ⟨unimplementedWord_of_ldFVx hdecode, encode_of_decodeWord_ldFVx hdecode⟩
  · exact And.intro (by simpa using hstrict) ⟨unimplementedWord_of_reject hdecode, rfl⟩

end Sys2Proof.Machine

/-! PROOFS. The decoder against the encoder and the opcode map (spec/30_encoding.md R55 to R62): decoding undoes
encoding, a word that decodes is the word of its instruction, and a word that selects a row is not rejected. -/

namespace Sys2Proof.Machine

/-! ### Decoding undoes encoding -/

/-- Settles O1: each word decodes by evaluation. -/
theorem writtenWordsDecode : Obligations.WrittenWordsDecode :=
  ⟨rfl, rfl, rfl, rfl, rfl, rfl, rfl, rfl, rfl, rfl, rfl, rfl, rfl, rfl⟩

theorem decodeWord_rndVxNn (x : Nibble) (nn : Byte) :
    decodeWord (0xC#4 ++ x ++ nn) = .ok (.rndVxNn x nn) := by
  rw [decodeWord, fieldsOf_regImm]
  rfl

theorem decodeWord_encode (i : Instr) : decodeWord (encode i) = .ok i := by
  match i with
  | .cls | .ret => rfl
  | .jpNnn nnn => exact decodeWord_jpNnn nnn
  | .callNnn nnn => exact decodeWord_callNnn nnn
  | .ldINnn nnn => exact decodeWord_ldINnn nnn
  | .jpV0Nnn nnn => exact decodeWord_jpV0Nnn nnn
  | .seVxNn x nn => exact decodeWord_seVxNn x nn
  | .sneVxNn x nn => exact decodeWord_sneVxNn x nn
  | .ldVxNn x nn => exact decodeWord_ldVxNn x nn
  | .addVxNn x nn => exact decodeWord_addVxNn x nn
  | .rndVxNn x nn => exact decodeWord_rndVxNn x nn
  | .seVxVy x y => exact decodeWord_seVxVy x y
  | .sneVxVy x y => exact decodeWord_sneVxVy x y
  | .drwVxVyN x y n => exact decodeWord_drwVxVyN x y n
  | .ldVxVy x y | .orVxVy x y | .andVxVy x y | .xorVxVy x y | .addVxVy x y | .subVxVy x y
  | .shrVxVy x y | .subnVxVy x y | .shlVxVy x y => exact decodeWord_class8 x y _
  | .skpVx x | .sknpVx x => exact decodeWord_classE x _
  | .ldVxDt x | .ldVxK x | .ldDtVx x | .ldStVx x | .addIVx x | .ldFVx x | .ldBVx x | .ldMemVx x
  | .ldVxMem x => exact decodeWord_classF x _

/-- Settles O3: the first two bytes join to the instruction's word, and that word decodes to it. -/
theorem decodeOfEncodeIsTheInstruction : Obligations.DecodeOfEncodeIsTheInstruction := by
  intro i rest
  have hword := joinBytes_wordBytes (encode i)
  simp only [encodeBytes, wordBytes, List.cons_append, List.nil_append, decode, hword,
    decodeWord_encode]
  rfl

/-! ### A word that decodes is the word of its instruction -/

/-- A word is its four nibbles side by side. -/
theorem word_eq_nibbles (w : Word) :
    w = (fieldsOf w).op ++ (fieldsOf w).x ++ (fieldsOf w).y ++ (fieldsOf w).n := by
  simp only [fieldsOf]
  ext i hi
  grind

theorem word_eq_op_nnn (w : Word) : w = (fieldsOf w).op ++ (fieldsOf w).nnn :=
  eq_op_append_iff.2 ⟨rfl, rfl⟩

theorem encode_of_decodeClass0 {f : Fields} {i : Instr} (h : decodeClass0 f = .ok i) :
    encode i = 0x0#4 ++ f.nnn := by
  unfold decodeClass0 at h
  split at h <;> cases h <;> simp [encode, *]

theorem encode_of_decodeClass5 {f : Fields} {i : Instr} (h : decodeClass5 f = .ok i) :
    encode i = 0x5#4 ++ f.x ++ f.y ++ f.n := by
  unfold decodeClass5 at h
  split at h <;> cases h
  simp only [encode, *]

theorem encode_of_decodeClass8 {f : Fields} {i : Instr} (h : decodeClass8 f = .ok i) :
    encode i = 0x8#4 ++ f.x ++ f.y ++ f.n := by
  unfold decodeClass8 at h
  split at h <;> cases h <;> simp only [encode, *]

theorem encode_of_decodeClass9 {f : Fields} {i : Instr} (h : decodeClass9 f = .ok i) :
    encode i = 0x9#4 ++ f.x ++ f.y ++ f.n := by
  unfold decodeClass9 at h
  split at h <;> cases h
  simp only [encode, *]

theorem encode_of_decodeClassE {f : Fields} {i : Instr} (h : decodeClassE f = .ok i) :
    encode i = 0xE#4 ++ f.x ++ f.nn := by
  unfold decodeClassE at h
  split at h <;> cases h <;> simp only [encode, *]

theorem encode_of_decodeClassF {f : Fields} {i : Instr} (h : decodeClassF f = .ok i) :
    encode i = 0xF#4 ++ f.x ++ f.nn := by
  unfold decodeClassF at h
  split at h <;> cases h <;> simp only [encode, *]

/-- Settles O4: the word is its fields side by side, in the shape of its class, and the fields are what the
decoder matched or answered as operands. -/
theorem encodeOfDecodeIsTheWord : Obligations.EncodeOfDecodeIsTheWord := by
  intro w i h
  rw [decodeWord] at h
  unfold decodeFields at h
  split at h
  case h_1 hop => rw [encode_of_decodeClass0 h, ← hop, ← word_eq_op_nnn]
  case h_6 hop => rw [encode_of_decodeClass5 h, ← hop, ← word_eq_nibbles]
  case h_9 hop => rw [encode_of_decodeClass8 h, ← hop, ← word_eq_nibbles]
  case h_10 hop => rw [encode_of_decodeClass9 h, ← hop, ← word_eq_nibbles]
  case h_15 hop => rw [encode_of_decodeClassE h, ← hop, ← word_eq_fields]
  case h_16 =>
    have hop : (fieldsOf w).op = 0xF#4 := by
      simp only [imp_false] at *
      bv_omega
    rw [encode_of_decodeClassF h, ← hop, ← word_eq_fields]
  case h_14 hop => cases h; rw [encode, ← hop, ← word_eq_nibbles]
  case h_4 hop | h_5 hop | h_7 hop | h_8 hop | h_13 hop =>
    cases h
    rw [encode, ← hop, ← word_eq_fields]
  case h_2 hop | h_3 hop | h_11 hop | h_12 hop =>
    cases h
    rw [encode, ← hop, ← word_eq_op_nnn]

/-! ### The decoder and the opcode map (R59) -/

/-- Every mask covers `op`; in a class that can reject a word, the mask also covers the field that the class
dispatches on, and the pattern has a value there that the class lists. -/
theorem opcodeMap_by_class : ∀ r ∈ opcodeMap,
    (fieldsOf r.mask).op = BitVec.allOnes 4 ∧
    ((fieldsOf r.pattern).op = 0x0#4 → (fieldsOf r.mask).nnn = BitVec.allOnes 12 ∧
      (fieldsOf r.pattern).nnn ∈ [0x0E0#12, 0x0EE#12]) ∧
    ((fieldsOf r.pattern).op = 0x5#4 → (fieldsOf r.mask).n = BitVec.allOnes 4 ∧
      (fieldsOf r.pattern).n = 0x0#4) ∧
    ((fieldsOf r.pattern).op = 0x9#4 → (fieldsOf r.mask).n = BitVec.allOnes 4 ∧
      (fieldsOf r.pattern).n = 0x0#4) ∧
    ((fieldsOf r.pattern).op = 0x8#4 → (fieldsOf r.mask).n = BitVec.allOnes 4 ∧
      (fieldsOf r.pattern).n ∈ [0x0#4, 0x1#4, 0x2#4, 0x3#4, 0x4#4, 0x5#4, 0x6#4, 0x7#4, 0xE#4]) ∧
    ((fieldsOf r.pattern).op = 0xE#4 → (fieldsOf r.mask).nn = BitVec.allOnes 8 ∧
      (fieldsOf r.pattern).nn ∈ [0x9E#8, 0xA1#8]) ∧
    ((fieldsOf r.pattern).op = 0xF#4 → (fieldsOf r.mask).nn = BitVec.allOnes 8 ∧
      (fieldsOf r.pattern).nn ∈
        [0x07#8, 0x0A#8, 0x15#8, 0x18#8, 0x1E#8, 0x29#8, 0x33#8, 0x55#8, 0x65#8]) := by
  decide

/-- A word that selects a row has the pattern's value in every field the mask covers. -/
theorem fieldsOf_of_selects {r : OpcodeRow} {w : Word} (h : r.selects w = true) :
    ((fieldsOf r.mask).op = BitVec.allOnes 4 → (fieldsOf w).op = (fieldsOf r.pattern).op) ∧
    ((fieldsOf r.mask).n = BitVec.allOnes 4 → (fieldsOf w).n = (fieldsOf r.pattern).n) ∧
    ((fieldsOf r.mask).nn = BitVec.allOnes 8 → (fieldsOf w).nn = (fieldsOf r.pattern).nn) ∧
    ((fieldsOf r.mask).nnn = BitVec.allOnes 12 → (fieldsOf w).nnn = (fieldsOf r.pattern).nnn) := by
  have hp : r.pattern = w &&& r.mask := (eq_of_beq h).symm
  simp only [hp, fieldsOf, BitVec.extractLsb'_and]
  refine ⟨?_, ?_, ?_, ?_⟩ <;> (intro hm; rw [hm, BitVec.and_allOnes])

/-- A word that selects a row lies in none of the six parts of the unrecognized space. -/
theorem not_rejected_of_selects {r : OpcodeRow} {w : Word} (hr : r ∈ opcodeMap)
    (h : r.selects w = true) : ¬ ∃ e, decodeWord w = .error e := by
  obtain ⟨hop, hn, hnn, hnnn⟩ := fieldsOf_of_selects h
  obtain ⟨hmask, class0, class5, class9, class8, classE, classF⟩ := opcodeMap_by_class r hr
  rw [← hop hmask] at class0 class5 class9 class8 classE classF
  rw [decodeWord, decodeFields_rejects_iff, decodeClass0_rejects_iff, decodeClass5_rejects_iff,
    decodeClass9_rejects_iff, decodeClass8_rejects_iff, decodeClassE_rejects_iff,
    decodeClassF_rejects_iff]
  rintro (⟨ho, hne, hne'⟩ | ⟨ho, hne⟩ | ⟨ho, hne⟩ | ⟨ho, hout⟩ | ⟨ho, hout⟩ | ⟨ho, hout⟩)
  · obtain ⟨hm, hlisted⟩ := class0 ho
    rw [← hnnn hm] at hlisted
    simp [hne, hne'] at hlisted
  · obtain ⟨hm, hzero⟩ := class5 ho
    exact hne ((hn hm).trans hzero)
  · obtain ⟨hm, hzero⟩ := class9 ho
    exact hne ((hn hm).trans hzero)
  · obtain ⟨hm, hlisted⟩ := class8 ho
    exact hout (hn hm ▸ hlisted)
  · obtain ⟨hm, hlisted⟩ := classE ho
    exact hout (hnn hm ▸ hlisted)
  · obtain ⟨hm, hlisted⟩ := classF ho
    exact hout (hnn hm ▸ hlisted)

/-- The word of every instruction selects its row, by the lemma of its constructor. -/
theorem selectsRow (i : Instr) : Laws.SelectsRow.Statement i := by
  match i with
  | .cls => exact Laws.SelectsRow.cls
  | .ret => exact Laws.SelectsRow.ret
  | .jpNnn _ => exact Laws.SelectsRow.jpNnn _
  | .callNnn _ => exact Laws.SelectsRow.callNnn _
  | .seVxNn _ _ => exact Laws.SelectsRow.seVxNn _ _
  | .sneVxNn _ _ => exact Laws.SelectsRow.sneVxNn _ _
  | .seVxVy _ _ => exact Laws.SelectsRow.seVxVy _ _
  | .ldVxNn _ _ => exact Laws.SelectsRow.ldVxNn _ _
  | .addVxNn _ _ => exact Laws.SelectsRow.addVxNn _ _
  | .ldVxVy _ _ => exact Laws.SelectsRow.ldVxVy _ _
  | .orVxVy _ _ => exact Laws.SelectsRow.orVxVy _ _
  | .andVxVy _ _ => exact Laws.SelectsRow.andVxVy _ _
  | .xorVxVy _ _ => exact Laws.SelectsRow.xorVxVy _ _
  | .addVxVy _ _ => exact Laws.SelectsRow.addVxVy _ _
  | .subVxVy _ _ => exact Laws.SelectsRow.subVxVy _ _
  | .shrVxVy _ _ => exact Laws.SelectsRow.shrVxVy _ _
  | .subnVxVy _ _ => exact Laws.SelectsRow.subnVxVy _ _
  | .shlVxVy _ _ => exact Laws.SelectsRow.shlVxVy _ _
  | .sneVxVy _ _ => exact Laws.SelectsRow.sneVxVy _ _
  | .ldINnn _ => exact Laws.SelectsRow.ldINnn _
  | .jpV0Nnn _ => exact Laws.SelectsRow.jpV0Nnn _
  | .rndVxNn _ _ => exact Laws.SelectsRow.rndVxNn _ _
  | .drwVxVyN _ _ _ => exact Laws.SelectsRow.drwVxVyN _ _ _
  | .skpVx _ => exact Laws.SelectsRow.skpVx _
  | .sknpVx _ => exact Laws.SelectsRow.sknpVx _
  | .ldVxDt _ => exact Laws.SelectsRow.ldVxDt _
  | .ldVxK _ => exact Laws.SelectsRow.ldVxK _
  | .ldDtVx _ => exact Laws.SelectsRow.ldDtVx _
  | .ldStVx _ => exact Laws.SelectsRow.ldStVx _
  | .addIVx _ => exact Laws.SelectsRow.addIVx _
  | .ldFVx _ => exact Laws.SelectsRow.ldFVx _
  | .ldBVx _ => exact Laws.SelectsRow.ldBVx _
  | .ldMemVx _ => exact Laws.SelectsRow.ldMemVx _
  | .ldVxMem _ => exact Laws.SelectsRow.ldVxMem _

/-- Settles O5: a word that decodes is the word of its instruction, which selects the instruction's row; a
word that selects a row is not rejected. -/
theorem decoderAgreesWithOpcodeMap : Obligations.DecoderAgreesWithOpcodeMap := by
  intro w
  refine ⟨fun i hdecode => ?_, fun e hreject row hrow => ?_⟩
  · have hrow := selectsRow i
    rwa [Laws.SelectsRow.Statement, encodeOfDecodeIsTheWord w i hdecode] at hrow
  · rw [← Bool.not_eq_true]
    exact fun hselects => not_rejected_of_selects hrow hselects ⟨e, hreject⟩

end Sys2Proof.Machine

/-! PROOFS. Two instructions after each other, by the clauses of each (spec/42_control_flow.md R87,
spec/44_index_memory.md R106, spec/20_memory.md R52), and the masked random byte (spec/43_alu.md R99). -/

namespace Sys2Proof.Machine

/-- Settles O30: the call leaves the address after it on top of the old stack, and the return pops it. -/
theorem callThenReturnRestoresPc : Obligations.CallThenReturnRestoresPc :=
  fun nnn _ hroom => ⟨_, exec_callNnn_of_room hroom nnn, fun _ hstack => exec_ret_of_nonempty hstack⟩

/-- Settles O44: each register loaded is the byte at its place, which is the register stored there. -/
theorem storeThenLoadRoundTrips : Obligations.StoreThenLoadRoundTrips := by
  intro x s hwf hrange
  obtain ⟨-, hstore, -⟩ := registerRangeIsStored x s hwf
  obtain ⟨t, hexec, -, hstored, -⟩ := hstore hrange
  refine ⟨t, hexec, fun u hmem hindex => ?_⟩
  obtain ⟨-, hload, -⟩ := registerRangeIsLoaded x u
  obtain ⟨w, hexec', -, hloaded⟩ := hload (by rwa [hindex])
  refine ⟨w, hexec', fun k hk => ?_⟩
  rw [hloaded, if_pos hk, hmem, hindex, hstored k hk]

/-- Settles O45: the two addresses fetched are those of two neighbours of the stored range. -/
theorem storedBytesAreFetchedBigEndian : Obligations.StoredBytesAreFetchedBigEndian := by
  intro x k k' s hwf hrange hnext hk'
  obtain ⟨-, hstore, -⟩ := registerRangeIsStored x s hwf
  obtain ⟨t, hexec, -, hstored, -⟩ := hstore hrange
  refine ⟨t, hexec, _, fetch16_ok t.mem (by omega), ?_⟩
  rw [joinBytes_toNat, hstored k (by omega), Nat.add_assoc, ← hnext, hstored k' hk']

/-- Settles O37: the masked byte is written to Vx. -/
theorem randomByteIsMasked : Obligations.RandomByteIsMasked := by
  intro x nn s
  refine ⟨decodeWord_rndVxNn x nn, _, rfl, rfl, fun k => ?_, readV_writeV_of_ne s x _⟩
  rw [readV_writeV_same, BitVec.getLsbD_and]

end Sys2Proof.Machine

/-! PROOFS. What one instruction can do to the state, said once for every instruction, and from it who writes
memory, the other registers and the host's side of the state (spec/10_state.md R24 to R34, spec/20_memory.md
R37, R45). -/

namespace Sys2Proof.Machine

/-! ### The effect of an instruction -/

/-- `Effect s i t`: what `i`, executed in the state `s` that the advance left, can leave as `t`. Values that no
frame rule speaks of are left open. -/
inductive Effect (s : State) : Instr → State → Prop
  | fault {i : Instr} {f : FaultRaise} (hraises : Raises s i f) :
      Effect s i (enterFault (s.pc - 2#16) f s)
  | registers {i : Instr} (v : Vector Byte 16) (pc : Word) : Effect s i { s with v := v, pc := pc }
  | index {i : Instr} (hi : (∃ nnn, i = .ldINnn nnn) ∨ ∃ x, i = .addIVx x) (index : Word)
      (v : Vector Byte 16) : Effect s i { s with index := index, v := v }
  | pop {below : List Word} {top : Word} (hstack : s.stack = below ++ [top]) :
      Effect s .ret { s with pc := top, stack := below }
  | push {nnn : Addr12} (hroom : s.stack.length < 16) (pc : Word) :
      Effect s (.callNnn nnn) { s with pc := pc, stack := s.stack ++ [s.pc] }
  | delay {x : Nibble} (dt : Byte) : Effect s (.ldDtVx x) { s with dt := dt }
  | sound {x : Nibble} (st : Byte) : Effect s (.ldStVx x) { s with st := st }
  | display {i : Instr} (hi : i = .cls ∨ ∃ x y n, i = .drwVxVyN x y n) (fb : PixelGrid)
      (v : Vector Byte 16) : Effect s i { s with fb := fb, v := v }
  | store {i : Instr} {bytes : List Byte} (hlen : bytes.length = storeCount i)
      (hfits : s.index.toNat + bytes.length ≤ 4096) : Effect s i (afterStore s bytes)
  | diagnose {x : Nibble} (hlenient : s.strictDecode = false) :
      Effect s (.ldFVx x) { s with diag := s.diag ++ [⟨s.pc - 2#16, encode (.ldFVx x)⟩] }

theorem effect_skipIf (i : Instr) (c : Bool) (s : State) : Effect s i (skipIf c s) := by
  rw [skipIf_eq]
  exact .registers s.v _

theorem effect_keyWait (i : Instr) (x : Nibble) (s : State) : Effect s i (keyWait x s) := by
  unfold keyWait
  split
  · exact .registers s.v _
  · exact .registers _ s.pc

theorem effect_afterLoad (i : Instr) (s : State) (x : Nibble) : Effect s i (afterLoad s x) := by
  rw [afterLoad, writeVFrom_only s 0]
  exact .registers _ s.pc

/-- Every execution has one of the effects. -/
theorem exec_effect (i : Instr) (s : State) : ∃ t, exec i s = .next t ∧ Effect s i t := by
  match i with
  | .ret =>
    obtain hempty | ⟨below, top, hstack⟩ := s.stack.eq_nil_or_concat'
    · exact ⟨_, exec_ret_of_empty hempty, .fault (.stackUnderflow hempty)⟩
    · exact ⟨_, exec_ret_of_nonempty hstack, .pop hstack⟩
  | .callNnn nnn =>
    obtain hroom | hfull := Nat.lt_or_ge s.stack.length 16
    · exact ⟨_, exec_callNnn_of_room hroom nnn, .push hroom _⟩
    · exact ⟨_, exec_callNnn_of_full hfull nnn, .fault (.stackOverflow nnn hfull)⟩
  | .drwVxVyN x y n =>
    by_cases hfits : n = 0#4 ∨ s.index.toNat + n.toNat ≤ 4096
    · exact ⟨_, exec_drwVxVyN_of_fits hfits, .display (.inr ⟨x, y, n, rfl⟩) _ _⟩
    · obtain ⟨hn, hout⟩ := not_or.1 hfits
      have hcount : n.toNat ≠ 0 := fun h0 => hn (BitVec.eq_of_toNat_eq h0)
      have hout' := Nat.lt_of_not_le hout
      exact ⟨_, exec_drwVxVyN_of_outOfBounds hn hout', .fault (.outOfBounds hcount hout')⟩
  | .ldBVx x =>
    obtain hfits | hout := le_or_gt s.index.toNat 4093
    · exact ⟨_, exec_ldBVx_of_fits hfits x, .store rfl (Nat.add_le_add_right hfits 3)⟩
    · exact ⟨_, exec_ldBVx_of_outOfBounds hout x,
        .fault (.outOfBounds (Nat.succ_ne_zero _) (Nat.add_lt_add_right hout 3))⟩
  | .ldMemVx x =>
    have hlen := rangeBytes_length s x
    obtain hfits | hout := le_or_gt (s.index.toNat + x.toNat) 4095
    · exact ⟨_, exec_ldMemVx_of_fits hfits, .store hlen (by omega)⟩
    · exact ⟨_, exec_ldMemVx_of_outOfBounds hout,
        .fault (.outOfBounds (Nat.succ_ne_zero _) (Nat.succ_lt_succ hout))⟩
  | .ldVxMem x =>
    obtain hfits | hout := le_or_gt (s.index.toNat + x.toNat) 4095
    · exact ⟨_, exec_ldVxMem_of_fits hfits, effect_afterLoad _ s x⟩
    · exact ⟨_, exec_ldVxMem_of_outOfBounds hout,
        .fault (.outOfBounds (Nat.succ_ne_zero _) (Nat.succ_lt_succ hout))⟩
  | .skpVx x =>
    obtain hkey | hout := Nat.lt_or_ge (readV s x).toNat 16
    · exact ⟨_, (exec_key_skips_of_lt hkey).1, effect_skipIf _ _ s⟩
    · exact ⟨_, (exec_key_skips_of_gt hout).1, .fault (.keyOutOfRange x (.inl rfl) hout)⟩
  | .sknpVx x =>
    obtain hkey | hout := Nat.lt_or_ge (readV s x).toNat 16
    · exact ⟨_, (exec_key_skips_of_lt hkey).2, effect_skipIf _ _ s⟩
    · exact ⟨_, (exec_key_skips_of_gt hout).2, .fault (.keyOutOfRange x (.inr rfl) hout)⟩
  | .ldFVx x =>
    cases hstrict : s.strictDecode
    case false => exact ⟨_, exec_ldFVx_of_lenient hstrict x, .diagnose hstrict⟩
    case true => exact ⟨_, exec_ldFVx_of_strict hstrict x, .fault (.unknownOpcode x hstrict)⟩
  | .seVxNn _ _ | .sneVxNn _ _ | .seVxVy _ _ | .sneVxVy _ _ => exact ⟨_, rfl, effect_skipIf _ _ s⟩
  | .ldVxK x => exact ⟨_, rfl, effect_keyWait _ x s⟩
  | .cls => exact ⟨_, rfl, .display (.inl rfl) blankGrid s.v⟩
  | .ldINnn nnn => exact ⟨_, rfl, .index (.inl ⟨nnn, rfl⟩) _ s.v⟩
  | .addIVx x => exact ⟨_, rfl, .index (.inr ⟨x, rfl⟩) _ _⟩
  | .ldDtVx x => exact ⟨_, rfl, .delay (readV s x)⟩
  | .ldStVx x => exact ⟨_, rfl, .sound (readV s x)⟩
  | .jpNnn _ | .jpV0Nnn _ => exact ⟨_, rfl, .registers s.v _⟩
  | .ldVxNn _ _ | .addVxNn _ _ | .ldVxVy _ _ | .orVxVy _ _ | .andVxVy _ _ | .xorVxVy _ _
  | .addVxVy _ _ | .subVxVy _ _ | .shrVxVy _ _ | .subnVxVy _ _ | .shlVxVy _ _ | .rndVxNn _ _
  | .ldVxDt _ => exact ⟨_, rfl, .registers _ s.pc⟩

theorem effect_of_exec {i : Instr} {s t : State} (h : exec i s = .next t) : Effect s i t := by
  obtain ⟨u, hu, heffect⟩ := exec_effect i s
  exact Host.Outcome.next.inj (hu.symm.trans h) ▸ heffect

/-! ### Who writes what -/

/-- Settles O52: a store is the one effect on memory, and outside its bytes it changes nothing. -/
theorem writersOfMemory : Obligations.WritersOfMemory := by
  intro i s t hwf h a hne
  cases effect_of_exec h with
  | store hlen hfits =>
    by_contra hout
    exact hne (memGet_afterStore_outside hwf hfits (by omega))
  | _ => exact absurd rfl hne

/-- Settles O53: an effect that writes one of the five carries the instruction that has it. -/
theorem writersOfIndexStackTimersDisplay : Obligations.WritersOfIndexStackTimersDisplay := by
  intro i s t h
  cases effect_of_exec h with
  | index hi _ _ => exact ⟨fun _ => hi, absurd rfl, absurd rfl, absurd rfl, absurd rfl⟩
  | pop _ => exact ⟨absurd rfl, fun _ => .inl rfl, absurd rfl, absurd rfl, absurd rfl⟩
  | push _ _ => exact ⟨absurd rfl, fun _ => .inr ⟨_, rfl⟩, absurd rfl, absurd rfl, absurd rfl⟩
  | delay _ => exact ⟨absurd rfl, absurd rfl, fun _ => ⟨_, rfl⟩, absurd rfl, absurd rfl⟩
  | sound _ => exact ⟨absurd rfl, absurd rfl, absurd rfl, fun _ => ⟨_, rfl⟩, absurd rfl⟩
  | display hi _ _ => exact ⟨absurd rfl, absurd rfl, absurd rfl, absurd rfl, fun _ => hi⟩
  | fault _ | registers _ _ | store _ _ | diagnose _ =>
    exact ⟨absurd rfl, absurd rfl, absurd rfl, absurd rfl, absurd rfl⟩

/-- Settles O54: a fault writes the status record, the event of `Fx29` the diagnostic stream, and no other
effect touches the host's side. -/
theorem writersOfHostSideState : Obligations.WritersOfHostSideState := by
  intro i s t h
  cases effect_of_exec h with
  | fault _ => exact ⟨rfl, rfl, rfl, rfl, rfl, fun _ => rfl, absurd rfl⟩
  | diagnose _ => exact ⟨rfl, rfl, rfl, rfl, rfl, absurd rfl, fun _ => ⟨⟨_, rfl⟩, _, rfl⟩⟩
  | _ => exact ⟨rfl, rfl, rfl, rfl, rfl, absurd rfl, absurd rfl⟩

end Sys2Proof.Machine

/-! PROOFS. What an instruction does not read (spec/10_state.md R29, R31, R34; spec/60_exceptions.md R121, R130): an
execution in a state whose unread fields are laid over with other values, against the execution in the state
itself. -/

namespace Sys2Proof.Machine

/-- Replacements for the five fields that few or no instructions read; `id` keeps a field. -/
structure Overlay where
  keys : Keypad → Keypad := id
  rand : Byte → Byte := id
  st : Byte → Byte := id
  status : RunStatus → RunStatus := id
  diag : List Diagnostic → List Diagnostic := id

/-- The state with the fields replaced. -/
def Overlay.apply (o : Overlay) (s : State) : State :=
  { s with
    keys := o.keys s.keys, rand := o.rand s.rand, st := o.st s.st, status := o.status s.status,
    diag := o.diag s.diag }

/-- The instructions that read the snapshot (R29). -/
def readsKeys : Instr → Bool
  | .skpVx _ | .sknpVx _ | .ldVxK _ => true
  | _ => false

/-- The instructions that read the random byte (R130). -/
def readsRand : Instr → Bool
  | .rndVxNn _ _ => true
  | _ => false

/-- The instructions that write the sound timer or the diagnostic stream (R103, R113). -/
def writesUnread : Instr → Bool
  | .ldStVx _ | .ldFVx _ => true
  | _ => false

/-! ### The shared operations under an overlay -/

section
variable (o : Overlay) (s : State)

/-- Where the continuation commutes with the overlay, so does a computation that reads no field laid over. -/
theorem map_overlay {α : Type} {g g' : α → State} (h : ∀ a, g' a = o.apply (g a))
    (r : Except FaultRaise α) : r.map g' = (r.map g).map o.apply := by
  cases r with
  | ok a => exact congrArg Except.ok (h a)
  | error f => rfl

theorem popPc_overlay : popPc (o.apply s) = (popPc s).map o.apply := by
  obtain ⟨hs, hpop⟩ | ⟨below, top, hs, hpop⟩ := popPc_cases s
  · rw [hpop]
    exact popPc_nil hs
  · rw [hpop]
    exact popPc_concat hs

theorem pushPc_overlay : pushPc (o.apply s) = (pushPc s).map o.apply := by
  rw [pushPc_eq, pushPc_eq, apply_ite (Except.map o.apply)]
  rfl

theorem drawEffect_overlay (x y n : Nibble) :
    drawEffect x y n (o.apply s) = (drawEffect x y n s).map o.apply := by
  have hread : memReadBytes (o.apply s).mem (baseAddr (o.apply s)) n.toNat =
      memReadBytes s.mem (baseAddr s) n.toNat := rfl
  unfold drawEffect
  rw [hread]
  cases memReadBytes s.mem (baseAddr s) n.toNat <;> rfl

theorem storeAtIndex_overlay (bytes : List Byte) :
    storeAtIndex (o.apply s) bytes = (storeAtIndex s bytes).map o.apply :=
  map_overlay o (g := fun m => { s with mem := m }) (fun _ => rfl)
    (memWriteBytes s.mem (baseAddr s) bytes)

theorem unrecognizedAction_overlay (hdiag : o.diag = id) (w : Word) :
    unrecognizedAction w (o.apply s) = (unrecognizedAction w s).map o.apply := by
  obtain ⟨_, _, _, _, _⟩ := o
  obtain rfl := hdiag
  cases hstrict : s.strictDecode
  case false =>
    rw [unrecognizedAction_lenient hstrict]
    exact unrecognizedAction_lenient (s := Overlay.apply _ s) hstrict w
  case true =>
    rw [unrecognizedAction_strict hstrict]
    exact unrecognizedAction_strict (s := Overlay.apply _ s) hstrict w

theorem skipIf_overlay (c : Bool) : skipIf c (o.apply s) = o.apply (skipIf c s) := by
  cases c <;> rfl

theorem keyWait_overlay (hkeys : o.keys = id) (x : Nibble) :
    keyWait x (o.apply s) = o.apply (keyWait x s) := by
  have hsame : (o.apply s).keys = s.keys := congrFun hkeys s.keys
  unfold keyWait
  rw [hsame]
  cases keySelect s.keys <;> rfl

theorem writeVFrom_overlay (r : Nat) (bytes : List Byte) :
    writeVFrom (o.apply s) r bytes = o.apply (writeVFrom s r bytes) := by
  induction bytes generalizing s r with
  | nil => rfl
  | cons b rest ih => exact ih (writeV s (BitVec.ofNat 4 r) b) (r + 1)

theorem settle_overlay (hstatus : o.status = id) (r : Except FaultRaise State) :
    settle (o.apply s) (r.map o.apply) = o.apply (settle s r) := by
  obtain ⟨_, _, _, _, _⟩ := o
  obtain rfl := hstatus
  cases r <;> rfl

end

/-! ### Every instruction under an overlay -/

/-- An overlay of fields that `i` neither reads nor writes (a fault's entry aside) commutes with the effect of
`i`. -/
theorem exec_overlay {o : Overlay} {i : Instr} (hkeys : readsKeys i = true → o.keys = id)
    (hrand : readsRand i = true → o.rand = id)
    (hwrites : writesUnread i = true → o.st = id ∧ o.diag = id) (s : State) :
    ∃ r, exec i s = .next (settle s r) ∧
      exec i (o.apply s) = .next (settle (o.apply s) (r.map o.apply)) := by
  have hsameKeys (h : readsKeys i = true) : (o.apply s).keys = s.keys := congrFun (hkeys h) s.keys
  match i with
  | .ret => exact ⟨popPc s, rfl, by rw [← popPc_overlay]; rfl⟩
  | .callNnn nnn =>
    refine ⟨(pushPc s).map fun t => setPc t (zextAddr nnn), rfl, ?_⟩
    rw [exec, execCallNnn, pushPc_overlay]
    cases pushPc s <;> rfl
  | .drwVxVyN x y n => exact ⟨drawEffect x y n s, rfl, by rw [← drawEffect_overlay]; rfl⟩
  | .ldFVx x =>
    obtain ⟨-, hdiag⟩ := hwrites rfl
    exact ⟨unrecognizedAction (encode (.ldFVx x)) s, rfl,
      by rw [← unrecognizedAction_overlay o s hdiag]; rfl⟩
  | .skpVx x =>
    refine ⟨(keyOperand (readV s x)).map fun k => skipIf (keyDown s.keys k) s, rfl, ?_⟩
    rw [← map_overlay o fun k => skipIf_overlay o s (keyDown s.keys k), exec, execSkpVx,
      hsameKeys rfl]
    rfl
  | .sknpVx x =>
    refine ⟨(keyOperand (readV s x)).map fun k => skipIf (!keyDown s.keys k) s, rfl, ?_⟩
    rw [← map_overlay o fun k => skipIf_overlay o s (!keyDown s.keys k), exec, execSknpVx,
      hsameKeys rfl]
    rfl
  | .ldBVx x =>
    exact ⟨storeAtIndex s (decimalDigits (readV s x)), rfl, by rw [← storeAtIndex_overlay]; rfl⟩
  | .ldMemVx x =>
    exact ⟨storeAtIndex s (rangeBytes s x), rfl, by rw [← storeAtIndex_overlay]; rfl⟩
  | .ldVxMem x =>
    exact ⟨(memReadBytes s.mem (baseAddr s) (rangeCount x)).map (writeVFrom s 0), rfl,
      by rw [← map_overlay o (writeVFrom_overlay o s 0)]; rfl⟩
  | .ldVxK x => exact ⟨.ok (keyWait x s), rfl, congrArg _ (keyWait_overlay o s (hkeys rfl) x)⟩
  | .seVxNn _ _ | .sneVxNn _ _ | .seVxVy _ _ | .sneVxVy _ _ =>
    exact ⟨.ok (skipIf _ s), rfl, congrArg _ (skipIf_overlay o s _)⟩
  | .ldStVx x =>
    refine ⟨.ok { s with st := readV s x }, rfl, ?_⟩
    obtain ⟨_, _, _, _, _⟩ := o
    obtain ⟨rfl, -⟩ := hwrites rfl
    rfl
  | .rndVxNn x nn =>
    have hsame : (o.apply s).rand = s.rand := congrFun (hrand rfl) s.rand
    exact ⟨.ok (writeV s x (s.rand &&& nn)), rfl, by rw [exec, execRndVxNn, hsame]; rfl⟩
  | .cls | .jpNnn _ | .jpV0Nnn _ | .ldVxNn _ _ | .addVxNn _ _ | .ldVxVy _ _ | .orVxVy _ _
  | .andVxVy _ _ | .xorVxVy _ _ | .addVxVy _ _ | .subVxVy _ _ | .shrVxVy _ _ | .subnVxVy _ _
  | .shlVxVy _ _ | .ldINnn _ | .ldVxDt _ | .ldDtVx _ | .addIVx _ =>
    exact ⟨.ok _, rfl, rfl⟩

/-- A replacement of the snapshot and the random byte, of which `i` reads neither, stays as it is. -/
theorem exec_overlay_next {o : Overlay} {i : Instr} {s t : State} (h : exec i s = .next t)
    (hkeys : readsKeys i = true → o.keys = id) (hrand : readsRand i = true → o.rand = id)
    (hst : o.st = id) (hstatus : o.status = id) (hdiag : o.diag = id) :
    exec i (o.apply s) = .next (o.apply t) := by
  obtain ⟨r, hr, hr'⟩ := exec_overlay hkeys hrand (fun _ => ⟨hst, hdiag⟩) s
  obtain rfl := Host.Outcome.next.inj (hr.symm.trans h)
  rw [hr', settle_overlay o s hstatus]

/-- Settles O56: the snapshot and the random byte are laid over one at a time. -/
theorem snapshotAndDrawReaders : Obligations.SnapshotAndDrawReaders := by
  intro i s t h
  refine ⟨fun hi keys => ?snapshot, fun hi rand => ?draw⟩
  case snapshot =>
    refine exec_overlay_next (o := { keys := fun _ => keys }) h (fun hreads => ?_) (fun _ => rfl)
      rfl rfl rfl
    unfold readsKeys at hreads
    split at hreads <;> simp at hi hreads
  case draw =>
    refine exec_overlay_next (o := { rand := fun _ => rand }) h (fun _ => rfl) (fun hreads => ?_)
      rfl rfl rfl
    unfold readsRand at hreads
    split at hreads <;> simp at hi hreads

/-- Two states that differ at most in the sound timer, the status record and the diagnostic stream. -/
def DifferInUnread (t t' : State) : Prop :=
  t' = { t with st := t'.st, status := t'.status, diag := t'.diag }

/-- Where the effect commutes with the overlay, its results differ in the three fields alone; so do the
entries of its fault, which overwrite the status record. -/
theorem differInUnread_settle (s : State) (st : Byte) (status : RunStatus) (diag : List Diagnostic)
    (r : Except FaultRaise State) :
    let o : Overlay := { st := fun _ => st, status := fun _ => status, diag := fun _ => diag }
    DifferInUnread (settle s r) (settle (o.apply s) (r.map o.apply)) := by
  cases r <;> exact rfl

/-- Settles O55: the two instructions that write the sound timer or the stream by their clauses, every other
one by the overlay of the three fields. -/
theorem unreadStateDoesNotInfluence : Obligations.UnreadStateDoesNotInfluence := by
  intro i s t t' st status diag h h'
  change DifferInUnread t t'
  cases hwrites : writesUnread i with
  | false =>
    obtain ⟨r, hr, hr'⟩ := exec_overlay (i := i)
      (o := { st := fun _ => st, status := fun _ => status, diag := fun _ => diag })
      (fun _ => rfl) (fun _ => rfl) (fun hi => by simp [hwrites] at hi) s
    obtain rfl := Host.Outcome.next.inj (hr.symm.trans h)
    obtain rfl := Host.Outcome.next.inj (hr'.symm.trans h')
    exact differInUnread_settle s st status diag r
  | true =>
    unfold writesUnread at hwrites
    split at hwrites
    case h_1 => cases h; cases h'; rfl
    case h_2 x =>
      cases hstrict : s.strictDecode
      case false =>
        rw [exec_ldFVx_of_lenient hstrict] at h
        rw [exec_ldFVx_of_lenient (s := { s with st := st, status := status, diag := diag })
          hstrict] at h'
        cases h; cases h'; rfl
      case true =>
        rw [exec_ldFVx_of_strict hstrict] at h
        rw [exec_ldFVx_of_strict (s := { s with st := st, status := status, diag := diag })
          hstrict] at h'
        cases h; cases h'; rfl
    case h_3 => cases hwrites

end Sys2Proof.Machine

/-! PROOFS. The host's turn and one step (spec/40_cycle.md R67 to R75, spec/60_exceptions.md R118 to R130): what the
turn does to the state, the step on each kind of fetched word, and the timers across a step. -/

namespace Sys2Proof.Machine

/-! ### The host's turn -/

/-- Settles O19: the turn takes the scheduled input, and its ticks at once are as many single ones. -/
theorem hostTurnFollowsItsSchedule : Obligations.HostTurnFollowsItsSchedule := by
  intro s h rest _
  rw [← ticks_eq_iterate]
  rfl

/-- The turn writes the timers, the snapshot, the random byte and the input fields, and nothing else. -/
theorem hostTurn_frame (s : State) :
    hostTurn s = { s with
      dt := (hostTurn s).dt, st := (hostTurn s).st, keys := (nextInput s).keys,
      rand := (nextInput s).rand, inputs := (hostTurn s).inputs,
      inputsTaken := (hostTurn s).inputsTaken } := by
  unfold hostTurn refresh ticks dropInput
  split <;> split <;> rfl

theorem countDownBy_le (n : Nat) (b : Byte) : (countDownBy n b).toNat ≤ b.toNat := by
  unfold countDownBy
  split_ifs
  · exact Nat.zero_le _
  · exact (Nat.mod_le _ _).trans (Nat.sub_le _ _)

theorem hostTurn_dt_le {s : State} (h : s.Running) : (hostTurn s).dt.toNat ≤ s.dt.toNat := by
  rw [(hostTurn_timers h).1]
  exact countDownBy_le _ _

theorem hostTurn_st_le {s : State} (h : s.Running) : (hostTurn s).st.toNat ≤ s.st.toNat := by
  rw [(hostTurn_timers h).2]
  exact countDownBy_le _ _

/-! ### One step (R67 to R71) -/

/-- Settles O12: a step answers a next state in the two running cases and the fault in the faulted one. -/
theorem stepEnabledExactlyWhenRunning : Obligations.StepEnabledExactlyWhenRunning := by
  intro s
  refine ⟨⟨fun ⟨t, ht⟩ => ?next, step_next_of_running⟩, fun hfaulted => ⟨?step, ?tick⟩⟩
  case next =>
    obtain ⟨-, hstep⟩ | ⟨hrun, -⟩ | ⟨hrun, -⟩ := step_cases s
    · cases ht.symm.trans hstep
    · exact hrun
    · exact hrun
  case step =>
    obtain ⟨-, hstep⟩ | ⟨hrun, -⟩ | ⟨hrun, -⟩ := step_cases s
    · exact hstep
    · cases hrun.symm.trans hfaulted
    · cases hrun.symm.trans hfaulted
  case tick => exact tick_of_not_running (by simp [State.Running, hfaulted])

theorem running_of_step_next {s t : State} (h : step s = .next t) : s.Running :=
  (stepEnabledExactlyWhenRunning s).1.1 ⟨t, h⟩

/-- The state in which a fetched word is executed. -/
abbrev afterAdvance (s : State) : State := advancePc (hostTurn s)

theorem step_of_fetch {s : State} (hs : s.Running) (hpc : s.pc.toNat ≤ 4094) :
    step s = execWord (fetchedWord s) (afterAdvance s) := by
  obtain ⟨hfaulted, -⟩ | ⟨-, hout, -⟩ | ⟨-, -, hstep⟩ := step_cases s
  · cases hs.symm.trans hfaulted
  · omega
  · exact hstep

theorem step_of_fetch_fault {s : State} (hs : s.Running) (hpc : 4094 < s.pc.toNat) :
    step s = .next (enterFault s.pc (outOfBoundsAt (max s.pc.toNat 4096)) (hostTurn s)) := by
  obtain ⟨hfaulted, -⟩ | ⟨-, -, hstep⟩ | ⟨-, hle, -⟩ := step_cases s
  · cases hs.symm.trans hfaulted
  · exact hstep
  · omega

/-- The advance from an address that can be fetched does not wrap. -/
theorem advance_toNat {pc : Word} (h : pc.toNat ≤ 4094) : (pc + 2#16).toNat = pc.toNat + 2 := by
  bv_omega

/-- Settles O9: the fetched word decodes to the instruction of its two bytes, and the state it runs in is the
turn's with the advance. -/
theorem stepRunsTheDecodedInstruction : Obligations.StepRunsTheDecodedInstruction := by
  intro s i hs hpc hdecode
  have hword : decodeWord (fetchedWord s) = .ok i := by
    have hpair : (decodeWord (fetchedWord s)).map (fun j => (j, ([] : List Byte))) = .ok (i, []) :=
      hdecode
    cases hword : decodeWord (fetchedWord s) with
    | ok j => rw [hword] at hpair; cases hpair; rfl
    | error e => rw [hword] at hpair; cases hpair
  refine ⟨?runs, ?advanced, _, _, _, _, (hostTurn s).inputs, (hostTurn s).inputsTaken, ?frame,
    hostTurn_dt_le hs, hostTurn_st_le hs, rfl, rfl⟩
  case runs => rw [step_of_fetch hs hpc, execWord_decoded hword]
  case advanced => rw [advancePc_pc, hostTurn_pc, advance_toNat hpc]
  case frame => rw [advancePc, hostTurn_pc, hostTurn_frame]; rfl

/-- The first address out of range of a fetch that faults is `pc` or the one after it (R124). -/
theorem fetch_fault_info {pc : Word} (h : 4094 < pc.toNat) :
    (outOfBoundsAt (max pc.toNat 4096)).info = if 4095 < pc.toNat then pc else pc + 1#16 := by
  apply BitVec.eq_of_toNat_eq
  rw [outOfBoundsAt_info_toNat]
  split_ifs with habove
  · omega
  · bv_omega

/-- Settles O11: the fault entry after the host's turn, with the address it reports. -/
theorem fetchFaultKeepsPc : Obligations.FetchFaultKeepsPc := by
  intro s hs hpc
  rw [step_of_fetch_fault hs hpc, ← fetch_fault_info hpc]
  rfl

/-! ### Unrecognized words (R72) -/

theorem unimplementedWord_cases {w : Word} (h : unimplementedWord w = true) :
    (∃ x, decodeWord w = .ok (.ldFVx x)) ∨ ∃ e, decodeWord w = .error e := by
  unfold unimplementedWord at h
  split at h
  case h_1 x hdecode => exact .inl ⟨x, hdecode⟩
  case h_2 => cases h
  case h_3 e hdecode => exact .inr ⟨e, hdecode⟩

/-- `Fx29` and a word that selects no row are executed alike. -/
theorem execWord_of_unimplemented {w : Word} (h : unimplementedWord w = true) (s : State) :
    execWord w s = .next (settle s (unrecognizedAction w s)) := by
  obtain ⟨x, hdecode⟩ | ⟨e, hdecode⟩ := unimplementedWord_cases h
  · rw [execWord_decoded hdecode, exec, execLdFVx, encode_of_decodeWord_ldFVx hdecode]
  · exact execWord_reject hdecode s

/-- Settles O10: the action of the unrecognized word in the state the advance left. -/
theorem stepOnUnrecognizedWord : Obligations.StepOnUnrecognizedWord := by
  intro s hs hpc hword
  rw [step_of_fetch hs hpc, execWord_of_unimplemented hword]
  refine ⟨fun hlenient => ?_, fun hstrict => ?_⟩
  · rw [unrecognizedAction_lenient (by simpa using hlenient), settle_ok]
    simp [advancePc, setPc]
  · rw [unrecognizedAction_strict (by simpa using hstrict), settle_error]
    simp [enterFault, advancePc, setPc]

/-! ### A step that faults (R123) -/

theorem cause_ne_noFault_of_raises {s : State} {i : Instr} {f : FaultRaise} (h : Raises s i f) :
    f.cause ≠ .noFault := by
  cases h <;> simp [outOfBoundsAt]

theorem cause_ne_noFault_of_wordRaises {s : State} {w : Word} {f : FaultRaise}
    (h : WordRaises s w f) : f.cause ≠ .noFault := by
  obtain ⟨i, -, hraises⟩ | ⟨-, -, rfl⟩ := h
  · exact cause_ne_noFault_of_raises hraises
  · simp

/-- Settles O13: the entry of a fetch fault keeps `pc`, that of any other fault the advance. -/
theorem faultEntryWritesOnlyStatus : Obligations.FaultEntryWritesOnlyStatus := by
  intro s t hs h ht
  obtain ⟨hpc, rfl⟩ | ⟨hpc, f, hraises, rfl⟩ := step_fault_cases hs h ht
  · exact ⟨rfl, rfl, by simp [outOfBoundsAt], rfl, by simp [hpc.not_ge]⟩
  · exact ⟨rfl, rfl, cause_ne_noFault_of_wordRaises hraises, rfl, by simp [hpc]⟩

/-! ### The timers across a step (R146) -/

/-- A step executes an instruction, or leaves the timers as the host's turn did. -/
theorem step_timers_cases {s t : State} (hs : s.Running) (h : step s = .next t) :
    (s.pc.toNat ≤ 4094 ∧
      ∃ i, decodeWord (fetchedWord s) = .ok i ∧ exec i (afterAdvance s) = .next t) ∨
    (t.dt = (hostTurn s).dt ∧ t.st = (hostTurn s).st) := by
  obtain hpc | hpc := le_or_gt s.pc.toNat 4094
  · rw [step_of_fetch hs hpc] at h
    cases hdecode : decodeWord (fetchedWord s) with
    | ok i => exact .inl ⟨hpc, i, rfl, by rwa [execWord_decoded hdecode] at h⟩
    | error e =>
      rw [execWord_reject hdecode] at h
      obtain rfl := Host.Outcome.next.inj h
      refine .inr ?_
      cases hstrict : (afterAdvance s).strictDecode
      case false => rw [unrecognizedAction_lenient hstrict]; exact ⟨rfl, rfl⟩
      case true => rw [unrecognizedAction_strict hstrict]; exact ⟨rfl, rfl⟩
  · rw [step_of_fetch_fault hs hpc] at h
    cases h
    exact .inr ⟨rfl, rfl⟩

/-- A timer that a step leaves other than the host's turn did was set by the executed instruction. -/
theorem timer_writers_of_step {s t : State} (hs : s.Running) (h : step s = .next t) :
    (t.dt ≠ (hostTurn s).dt →
      ∃ x, s.pc.toNat ≤ 4094 ∧ decodeWord (fetchedWord s) = .ok (.ldDtVx x)) ∧
    (t.st ≠ (hostTurn s).st →
      ∃ x, s.pc.toNat ≤ 4094 ∧ decodeWord (fetchedWord s) = .ok (.ldStVx x)) := by
  obtain ⟨hpc, i, hi, hexec⟩ | ⟨hdt, hst⟩ := step_timers_cases hs h
  · obtain ⟨-, -, hdt, hst, -⟩ := writersOfIndexStackTimersDisplay i _ _ hexec
    refine ⟨fun hne => ?_, fun hne => ?_⟩
    · obtain ⟨x, rfl⟩ := hdt hne
      exact ⟨x, hpc, hi⟩
    · obtain ⟨x, rfl⟩ := hst hne
      exact ⟨x, hpc, hi⟩
  · exact ⟨fun hne => absurd hdt hne, fun hne => absurd hst hne⟩

/-- Settles O20: the turn raises no timer, and a step whose instruction is not a timer's writer keeps what the
turn left; a writer leaves Vx, which the turn and the advance kept. -/
theorem timersNeverIncreaseUnlessSet : Obligations.TimersNeverIncreaseUnlessSet := by
  intro s t hs h
  obtain ⟨hdt, hst⟩ := timer_writers_of_step hs h
  have hexec {i : Instr} (hpc : s.pc.toNat ≤ 4094) (hi : decodeWord (fetchedWord s) = .ok i) :
      exec i (afterAdvance s) = .next t := by
    rw [← execWord_decoded hi, ← step_of_fetch hs hpc, h]
  refine ⟨fun hnot => ?dtKept, fun x hpc hi => ?dtSet, fun hnot => ?stKept, fun x hpc hi => ?stSet⟩
  case dtKept => exact not_not.1 (mt hdt hnot) ▸ hostTurn_dt_le hs
  case stKept => exact not_not.1 (mt hst hnot) ▸ hostTurn_st_le hs
  case dtSet => cases hexec hpc hi; exact readV_hostTurn s x
  case stSet => cases hexec hpc hi; exact readV_hostTurn s x

end Sys2Proof.Machine

/-! PROOFS. The invariant of the machine: reset has it, with any ROM (spec/10_state.md R35, R48), and every step
keeps it (R21, R25, R31, R72, R79, R122). An instruction runs in a state that meets it too, since the advance from
an address that can be fetched stays below 0x10FE. -/

namespace Sys2Proof.Machine

/-! ### Reset -/

/-- Settles O57: the ROM's cells are canonical, and the rest is the reset state's. -/
theorem loadMeetsInvariant : Obligations.LoadMeetsInvariant := by
  intro rom s h
  obtain hfits | hlarge := le_or_gt (rom.length + 512) 4096
  · rw [load_of_fits hfits] at h
    cases h
    have hmem : Memory.wf (romCells 512 rom) = true :=
      memWfFrom_mono (Nat.zero_le 512) (romCells_wfFrom rom 512 (by omega))
    have hpc : State.reset.pc.toNat ≤ 0x10FE := by decide
    exact ⟨hmem, hpc, Nat.zero_le _, rfl, rfl, rfl, fun _ => rfl⟩
  · rw [load_of_too_large hlarge] at h
    cases h

/-- Settles O15: the reset state is the load of the empty ROM. -/
theorem resetMeetsInvariant : Obligations.ResetMeetsInvariant :=
  loadMeetsInvariant [] State.reset (load_of_fits (by decide))

/-! ### `pc` after an instruction that raises no fault (R20, R21) -/

/-- The bounds of `pc` while an instruction runs: 2 past an address that can be fetched. -/
abbrev PcAdvanced (s : State) : Prop := 2 ≤ s.pc.toNat ∧ s.pc.toNat ≤ 4096

theorem pcAfter_le {s : State} (hpc : PcAdvanced s)
    (hstack : ∀ a ∈ s.stack, a.toNat ≤ 0x1000) (i : Instr) : (pcAfter i s).toNat ≤ 0x10FE := by
  obtain ⟨hlo, hhi⟩ := hpc
  have hkeep : s.pc.toNat ≤ 0x10FE := by omega
  have hskip : (s.pc + 2#16).toNat ≤ 0x10FE := by bv_omega
  have hrewind : (s.pc - 2#16).toNat ≤ 0x10FE := by bv_omega
  unfold pcAfter
  split
  case h_1 =>
    obtain hempty | ⟨below, top, hs⟩ := s.stack.eq_nil_or_concat'
    · simp [hempty]
    · have htop := hstack top (by simp [hs])
      simp only [hs, List.getLastD_concat]
      omega
  case h_2 nnn | h_3 nnn =>
    have := nnn.isLt
    exact (Nat.mod_le _ _).trans (by omega)
  case h_4 nnn =>
    have := nnn.isLt
    have := (readV s 0#4).isLt
    exact (Nat.mod_le _ _).trans (by omega)
  case h_5 | h_6 | h_7 | h_8 | h_9 | h_10 | h_11 => split <;> assumption
  all_goals exact hkeep

/-! ### The status record of a fault (R31, R122) -/

/-- A raised fault names a cause, with the info that R122 gives for it. -/
def FaultRaise.wf (f : FaultRaise) : Prop :=
  f.cause ≠ .noFault ∧ RunStatus.infoMatches ⟨.faulted, f.cause, 0#16, f.info⟩ = true

theorem outOfBoundsAt_wf (a : Word) : (outOfBoundsAt (max a.toNat 4096)).wf := by
  refine ⟨by simp [outOfBoundsAt], decide_eq_true ?_⟩
  rw [outOfBoundsAt_info_toNat]
  omega

theorem wf_of_raises {s : State} {i : Instr} {f : FaultRaise} (h : Raises s i f) : f.wf := by
  cases h with
  | outOfBounds _ _ => exact outOfBoundsAt_wf s.index
  | stackUnderflow _ => exact ⟨by simp, rfl⟩
  | stackOverflow _ _ => exact ⟨by simp, rfl⟩
  | keyOutOfRange x _ hkey =>
    refine ⟨by simp, decide_eq_true ?_⟩
    have hbyte := (readV s x).isLt
    rw [toNat_word_of_byte]
    omega
  | unknownOpcode x _ => exact ⟨by simp, unimplementedWord_of_ldFVx (decodeWord_encode (.ldFVx x))⟩

theorem wf_of_wordRaises {s : State} {w : Word} {f : FaultRaise} (h : WordRaises s w f) : f.wf := by
  obtain ⟨i, -, hraises⟩ | ⟨⟨e, hreject⟩, -, rfl⟩ := h
  · exact wf_of_raises hraises
  · exact ⟨by simp, unimplementedWord_of_reject hreject⟩

/-- The entry of a fault keeps the invariant, since all it changes is the status record. -/
theorem enterFault_inv {s : State} {a : Word} {f : FaultRaise} (hinv : s.Inv) (hf : f.wf)
    (ha : a.toNat ≤ 0x10FE) : (enterFault a f s).Inv := by
  obtain ⟨hmem, hpc, hlen, hstack, -, hdiag, hstrict⟩ := hinv
  obtain ⟨hcause, hinfo⟩ := hf
  have hstatus : (enterFault a f s).status.wf = true := by
    have hinfo' : RunStatus.infoMatches ⟨.faulted, f.cause, a, f.info⟩ = true := hinfo
    simp [RunStatus.wf, hcause, hinfo', ha]
  exact ⟨hmem, hpc, hlen, hstack, hstatus, hdiag, hstrict⟩

/-! ### The host's turn and the advance -/

theorem hostTurn_inv {s : State} (hinv : s.Inv) : (hostTurn s).Inv := by
  simpa only [State.Inv, hostTurn_mem, hostTurn_pc, hostTurn_stack, hostTurn_status, hostTurn_diag,
    hostTurn_strictDecode] using hinv

theorem afterAdvance_pcAdvanced {s : State} (hpc : s.pc.toNat ≤ 4094) :
    PcAdvanced (afterAdvance s) := by
  rw [PcAdvanced, advancePc_pc, hostTurn_pc, advance_toNat hpc]
  omega

theorem afterAdvance_inv {s : State} (hinv : s.Inv) (hpc : s.pc.toNat ≤ 4094) :
    (afterAdvance s).Inv := by
  obtain ⟨hmem, -, hrest⟩ := hostTurn_inv hinv
  obtain ⟨-, hhi⟩ := afterAdvance_pcAdvanced hpc
  exact ⟨hmem, by omega, hrest⟩

/-! ### One instruction and one word -/

/-- The event of an unimplemented word keeps the invariant in lenient mode (R72). -/
theorem diagnose_inv {s : State} {w : Word} (hinv : s.Inv) (hpc : PcAdvanced s)
    (hword : unimplementedWord w = true) (hlenient : s.strictDecode = false) :
    State.Inv { s with diag := s.diag ++ [⟨s.pc - 2#16, w⟩] } := by
  obtain ⟨hmem, hpcle, hlen, hstack, hstatus, hdiag, -⟩ := hinv
  obtain ⟨hlo, hhi⟩ := hpc
  have haddr : (s.pc - 2#16).toNat ≤ 4094 := by bv_omega
  refine ⟨hmem, hpcle, hlen, hstack, hstatus, ?events, fun hstrict => ?strict⟩
  case events =>
    have hevent : Diagnostic.wf ⟨s.pc - 2#16, w⟩ = true := by
      rw [Diagnostic.wf, hword, Bool.and_true]
      exact decide_eq_true haddr
    simp [hdiag, hevent]
  case strict => cases hlenient.symm.trans hstrict

/-- An execution that leaves the core running keeps the invariant: `pc` by the table of R20, every other field
by the effect that wrote it. -/
theorem exec_inv {i : Instr} {s t : State} (hinv : s.Inv) (hpc : PcAdvanced s)
    (h : exec i s = .next t) (ht : t.Running) : t.Inv := by
  have ⟨hmem, _, hlen, hstack, hstatus, hdiag, hstrict⟩ := hinv
  have hentries : ∀ a ∈ s.stack, a.toNat ≤ 0x1000 := by simpa using hstack
  have hafter : t.pc.toNat ≤ 0x10FE := by
    rw [pcAfterEveryInstruction i s t h ht]
    exact pcAfter_le hpc hentries i
  cases effect_of_exec h with
  | fault _ => cases ht
  | pop hs =>
    rw [hs] at hlen hstack
    simp only [List.length_append, List.all_append, Bool.and_eq_true] at hlen hstack
    exact ⟨hmem, hafter, Nat.le_of_add_right_le hlen, hstack.1, hstatus, hdiag, hstrict⟩
  | push hroom _ =>
    obtain ⟨-, hhi⟩ := hpc
    exact ⟨hmem, hafter, by simpa [Config.stackDepth] using hroom, by simpa [hhi] using hentries,
      hstatus, hdiag, hstrict⟩
  | store _ hfits =>
    exact ⟨memSetBytes_wf hmem (.inr hfits), hafter, hlen, hstack, hstatus, hdiag, hstrict⟩
  | diagnose hlenient =>
    exact diagnose_inv hinv hpc (unimplementedWord_of_ldFVx (decodeWord_encode _)) hlenient
  | registers _ _ | index _ _ _ | delay _ | sound _ | display _ _ _ =>
    exact ⟨hmem, hafter, hlen, hstack, hstatus, hdiag, hstrict⟩

theorem execWord_inv {w : Word} {s t : State} (hinv : s.Inv) (hpc : PcAdvanced s)
    (h : execWord w s = .next t) (ht : t.Running) : t.Inv := by
  cases hdecode : decodeWord w with
  | ok i =>
    rw [execWord_decoded hdecode] at h
    exact exec_inv hinv hpc h ht
  | error e =>
    rw [execWord_reject hdecode] at h
    have hact : unrecognizedAction w s = .ok t := ok_of_next_settle h ht
    cases hstrict : s.strictDecode
    case false =>
      rw [unrecognizedAction_lenient hstrict] at hact
      cases hact
      exact diagnose_inv hinv hpc (unimplementedWord_of_reject hdecode) hstrict
    case true =>
      rw [unrecognizedAction_strict hstrict] at hact
      cases hact

/-! ### One step -/

/-- Settles O16: a step that leaves the core running has executed a word in a state that meets the invariant;
any other is the entry of a well-formed fault in such a state. -/
theorem everyStepKeepsInvariant : Obligations.EveryStepKeepsInvariant := by
  intro s t hinv h
  have hs := running_of_step_next h
  have ⟨_, hpcle, _⟩ := hinv
  by_cases ht : t.Running
  case pos =>
    obtain hpc | hpc := le_or_gt s.pc.toNat 4094
    · rw [step_of_fetch hs hpc] at h
      exact execWord_inv (afterAdvance_inv hinv hpc) (afterAdvance_pcAdvanced hpc) h ht
    · rw [step_of_fetch_fault hs hpc] at h
      cases h
      cases ht
  case neg =>
    obtain ⟨hpc, rfl⟩ | ⟨hpc, f, hraises, rfl⟩ := step_fault_cases hs h ht
    · exact enterFault_inv (hostTurn_inv hinv) (outOfBoundsAt_wf s.pc) hpcle
    · exact enterFault_inv (afterAdvance_inv hinv hpc) (wf_of_wordRaises hraises) hpcle

end Sys2Proof.Machine
